-- ==== Sys2Proof/Word.lean ====
section
/-!
DEFINITION. The words of the DS2782 register-value converter and bitfield decoder: bytes, 16-bit words,
request words, and the numeric domain `Num` of the conversion results.
-/
namespace Sys2Proof

/-- One byte as a register read delivers it; bit 0 is the least significant (spec/00_scope.md section 5). -/
abbrev Byte := BitVec 8

/-- A 16-bit raw word (spec/30_encoding.md R51). -/
abbrev Word16 := BitVec 16

/-- A request to the block, `REQ[23:0]` (spec/30_encoding.md R50). -/
abbrev RequestWord := BitVec 24

/-- The OPEN parameter `NUMFMT` (spec/40_conversion.md R66): the format results are computed in. -/
inductive NumFormat where
  | exact
  | binary32
  | binary64
deriving DecidableEq, Repr

/-- A value of the numeric domain `Num` (spec/40_conversion.md R66, spec/30_encoding.md R56): a rational when
`NUMFMT` is `exact`, the 32- or 64-bit pattern of the format otherwise. -/
inductive NumVal where
  | exact (q : Rat)
  | b32 (bits : BitVec 32)
  | b64 (bits : BitVec 64)
deriving DecidableEq, Repr

end Sys2Proof
end

