-- ==== Sys2Proof/Config.lean ====
section
/-!
DEFINITION. The parameters the spec leaves OPEN (spec/00_scope.md section 4) as plain data with the spec's defaults, and
the free values: bytes and patterns nothing in the model can evaluate.
-/
namespace Sys2Proof

/-- The quantities of spec/10_state.md R18. -/
inductive Quantity where
  | volt | temp | curr | iavg | acr | acrl | ab | acap | vsns
deriving DecidableEq, Repr

/-- `FMT[q].width` (R18): one byte or a 16-bit word. -/
inductive RawWidth where
  | w8
  | w16
deriving DecidableEq, Repr

/-- A row of the raw-format table `FMT` (R18), less what the spec fixes for every quantity. -/
structure RawFormat where
  width  : RawWidth
  signed : Bool
deriving DecidableEq, Repr

/-- `STATUS_POS` (spec/10_state.md R22): the positions of the four Status flags the spec does not fix. -/
structure StatusPos where
  aef    : Fin 8
  sef    : Fin 8
  learnf : Fin 8
  porf   : Fin 8
deriving DecidableEq, Repr

/-- Flag names: the six of the Status Register (spec/41_bitfield.md R92), and any name an OPEN table gives (R93 to R95). -/
inductive FlagName where
  | chgtf | aef | sef | learnf | uvf | porf
  | other (name : String)
deriving DecidableEq, Repr

/-- A table of named flag positions (spec/10_state.md R22). -/
abbrev FieldTable := List (FlagName × Fin 8)

/-- Access modes of a register (spec/20_memory.md R31). -/
inductive Access where
  | r | rw | w
deriving DecidableEq, Repr

/-- Register widths in bytes (spec/20_memory.md R31: 1, 2, 8, 16 or 32). -/
inductive RegWidth where
  | b1 | b2 | b8 | b16 | b32
deriving DecidableEq, Repr

def RegWidth.bytes : RegWidth → Nat
  | .b1 => 1
  | .b2 => 2
  | .b8 => 8
  | .b16 => 16
  | .b32 => 32

/-- The logical registers the spec names (spec/20_memory.md R33, R35, R46, spec/10_state.md R18, spec/41_bitfield.md R92 to
R95, spec/42_function_commands.md R100). -/
inductive RegName where
  | temperature | voltage | current | averageCurrent | accumulatedCurrent | accumulatedCurrentLow
  | activeAbsoluteCapacity | standbyAbsoluteCapacity | activeRelativeCapacity | standbyRelativeCapacity
  | status | control | specialFeature | eeprom
  | accumulationBias | chargeVoltage | minimumChargeCurrent | activeEmptyVoltage | activeEmptyCurrent
  | senseResistorPrime | senseResistorGain | factoryGain | userEeprom
  /-- The general view of the parameter block 0x60..0x7F. -/
  | parameterEeprom
  | functionCommand
deriving DecidableEq, Repr

/-- An address, a width and an access mode (spec/20_memory.md R31). -/
structure RegEntry where
  addr   : Byte
  width  : RegWidth
  access : Access
deriving DecidableEq, Repr

/-- `REGMAP : name -> (address, width, access)` where it is OPEN (spec/20_memory.md R35): one entry for every name but the two
the source fixes. `others` are registers of the chip that the spec does not name. -/
structure RegMap where
  temperature             : RegEntry
  voltage                 : RegEntry
  current                 : RegEntry
  averageCurrent          : RegEntry
  accumulatedCurrent      : RegEntry
  accumulatedCurrentLow   : RegEntry
  activeAbsoluteCapacity  : RegEntry
  standbyAbsoluteCapacity : RegEntry
  activeRelativeCapacity  : RegEntry
  standbyRelativeCapacity : RegEntry
  status                  : RegEntry
  control                 : RegEntry
  specialFeature          : RegEntry
  eeprom                  : RegEntry
  accumulationBias        : RegEntry
  chargeVoltage           : RegEntry
  minimumChargeCurrent    : RegEntry
  activeEmptyVoltage      : RegEntry
  activeEmptyCurrent      : RegEntry
  senseResistorPrime      : RegEntry
  senseResistorGain       : RegEntry
  factoryGain             : RegEntry
  userEeprom              : RegEntry
  others                  : List RegEntry
deriving DecidableEq, Repr

/-- PRESUMED (log entry 28): the register map of the DS2782 as its datasheet gives it, in part in spec/93 G12. The spec gives
no address of these registers. -/
def RegMap.default : RegMap where
  temperature := ⟨0x0A, .b2, .r⟩
  voltage := ⟨0x0C, .b2, .r⟩
  current := ⟨0x0E, .b2, .r⟩
  averageCurrent := ⟨0x08, .b2, .r⟩
  accumulatedCurrent := ⟨0x10, .b2, .rw⟩
  accumulatedCurrentLow := ⟨0x12, .b2, .r⟩
  activeAbsoluteCapacity := ⟨0x02, .b2, .r⟩
  standbyAbsoluteCapacity := ⟨0x04, .b2, .r⟩
  activeRelativeCapacity := ⟨0x06, .b1, .r⟩
  standbyRelativeCapacity := ⟨0x07, .b1, .r⟩
  status := ⟨0x01, .b1, .rw⟩
  control := ⟨0x60, .b1, .rw⟩
  specialFeature := ⟨0x15, .b1, .rw⟩
  eeprom := ⟨0x1F, .b1, .rw⟩
  accumulationBias := ⟨0x61, .b1, .rw⟩
  chargeVoltage := ⟨0x64, .b1, .rw⟩
  minimumChargeCurrent := ⟨0x65, .b1, .rw⟩
  activeEmptyVoltage := ⟨0x66, .b1, .rw⟩
  activeEmptyCurrent := ⟨0x67, .b1, .rw⟩
  senseResistorPrime := ⟨0x69, .b1, .rw⟩
  senseResistorGain := ⟨0x78, .b2, .rw⟩
  factoryGain := ⟨0x7B, .b2, .r⟩
  userEeprom := ⟨0x20, .b16, .rw⟩
  others := [⟨0xF0, .b8, .r⟩]

/-- How the address phase of a read ends (spec/20_memory.md R36, spec/93 U11: a parameter of the transport). -/
inductive PhaseEnd where
  | stop
  | repeatedStart
deriving DecidableEq, Repr

/-- Every OPEN parameter of the spec (spec/00_scope.md section 4, spec/93 U11 and U12). Factors are given as the rational
of their decimal definition; a floating `NUMFMT` rounds them when they are used (spec/40_conversion.md R66). -/
structure Params where
  numFormat                   : NumFormat
  temperatureFactor           : Rat
  accumulatedCurrentFactor    : Rat
  accumulatedCurrentLowFactor : Rat
  accumulationBiasFactor      : Rat
  tempFormat                  : RawFormat
  currFormat                  : RawFormat
  iavgFormat                  : RawFormat
  acrFormat                   : RawFormat
  acrlFormat                  : RawFormat
  abFormat                    : RawFormat
  acapFormat                  : RawFormat
  vsnsFormat                  : RawFormat
  statusPos                   : StatusPos
  controlFields               : FieldTable
  sfrFields                   : FieldTable
  eepromFields                : FieldTable
  regmap                      : RegMap
  reserved                    : List Byte
  phaseEnd                    : PhaseEnd
deriving DecidableEq, Repr

/-- The spec's defaults (spec/00_scope.md section 4, spec/10_state.md R17, R18, R22). DESIGN CHOICE (log entry 4) where
the spec gives none: no reserved address, and STOP between the phases of a read; `REGMAP` is PRESUMED (log entry 28). -/
def Params.default : Params where
  numFormat := .exact
  temperatureFactor := 1 / 256
  accumulatedCurrentFactor := 1 / 160
  accumulatedCurrentLowFactor := 1 / 10485760
  accumulationBiasFactor := 1 / 640
  tempFormat := ⟨.w16, true⟩
  currFormat := ⟨.w16, true⟩
  iavgFormat := ⟨.w16, true⟩
  acrFormat := ⟨.w16, false⟩
  acrlFormat := ⟨.w16, false⟩
  abFormat := ⟨.w8, true⟩
  acapFormat := ⟨.w16, false⟩
  vsnsFormat := ⟨.w16, true⟩
  statusPos := ⟨1, 2, 3, 7⟩
  controlFields := []
  sfrFields := []
  eepromFields := []
  regmap := RegMap.default
  reserved := []
  phaseEnd := .stop

/-- FREE VALUE (log entry 9): the byte the chip answers at the n-th draw (spec/20_memory.md R44, spec/93 U2, U3, U13). -/
opaque Config.chipByte : Nat → Byte

/-- FREE VALUE (log entry 14): the sign of a NaN an operation produces; the spec gives none (spec/40_conversion.md R81). -/
opaque Config.nanSign : Bool

/-- FREE VALUE (log entry 14): what fills the fraction of a NaN an operation produces; `FloatFormat.nan` keeps the pattern
a NaN whatever this is. -/
opaque Config.nanPayload : Nat

end Sys2Proof
end

