-- ==== Sys2Proof/Machine/Tables.lean ====
section
/-!
DEFINITION. The constant tables of the block: the scaling factors (spec/10_state.md R13 to R17), the raw-format table
(R18), and the flag positions the spec fixes (R22).
-/
namespace Sys2Proof

/-- 5/32768 volts per count (R14). -/
def voltageFactor : Rat := 5 / 32768

/-- 1/640 millivolts per count (R15). -/
def currentFactor : Rat := 1 / 640

/-- 8/5 milliamp-hours per count (R16). -/
def absoluteCapacityFactor : Rat := 8 / 5

/-- `FACTOR[q]` (R13, R18): seven constants serve nine quantities. -/
def Params.factor (p : Params) : Quantity → Rat
  | .volt => voltageFactor
  | .temp => p.temperatureFactor
  | .curr => currentFactor
  | .iavg => currentFactor
  | .acr => p.accumulatedCurrentFactor
  | .acrl => p.accumulatedCurrentLowFactor
  | .ab => p.accumulationBiasFactor
  | .acap => absoluteCapacityFactor
  | .vsns => currentFactor

/-- `FMT[q]`, its width and sign (R18): VOLT is fixed, the others are OPEN. -/
def Params.format (p : Params) : Quantity → RawFormat
  | .volt => ⟨.w16, true⟩
  | .temp => p.tempFormat
  | .curr => p.currFormat
  | .iavg => p.iavgFormat
  | .acr => p.acrFormat
  | .acrl => p.acrlFormat
  | .ab => p.abFormat
  | .acap => p.acapFormat
  | .vsns => p.vsnsFormat

/-- Is the result divided by `RSNS`? Fixed by the source: the current family is (R18). -/
def Quantity.divByRsns : Quantity → Bool
  | .curr | .iavg | .acr | .acrl | .ab => true
  | .volt | .temp | .acap | .vsns => false

/-- The unit of a result (R18, D31). -/
inductive ResultUnit where
  | volt
  | celsius
  | milliamp
  | milliampHour
  | millivolt
deriving DecidableEq, Repr

/-- The unit column of R18. It is no part of the response (spec/30_encoding.md R56); log entry 19. -/
def Quantity.unit : Quantity → ResultUnit
  | .volt => .volt
  | .temp => .celsius
  | .curr | .iavg | .ab => .milliamp
  | .acr | .acrl | .acap => .milliampHour
  | .vsns => .millivolt

/-- CHGTF is bit 0 of the Status byte (R22). -/
def chgtfPos : Fin 8 := 0

/-- UVF is bit 6 of the Status byte (R22). -/
def uvfPos : Fin 8 := 6

/-- The named flags of the Status Register in the source's listing order (R22, spec/41_bitfield.md R92). -/
def Params.statusFields (p : Params) : FieldTable :=
  [(.chgtf, chgtfPos), (.aef, p.statusPos.aef), (.sef, p.statusPos.sef), (.learnf, p.statusPos.learnf),
   (.uvf, uvfPos), (.porf, p.statusPos.porf)]

/-- The parameter block 0x60..0x7F in its general view (spec/20_memory.md R33), read/write as R42 says of its registers. -/
def parameterEepromEntry : RegEntry := ⟨0x60, .b32, .rw⟩

/-- The function-command register: 0xFE, write-only, one byte (spec/42_function_commands.md R100). -/
def functionCommandEntry : RegEntry := ⟨0xFE, .b1, .w⟩

/-- The register map: a pure lookup with no failure (spec/20_memory.md R34). -/
def RegMap.entry (m : RegMap) : RegName → RegEntry
  | .temperature => m.temperature
  | .voltage => m.voltage
  | .current => m.current
  | .averageCurrent => m.averageCurrent
  | .accumulatedCurrent => m.accumulatedCurrent
  | .accumulatedCurrentLow => m.accumulatedCurrentLow
  | .activeAbsoluteCapacity => m.activeAbsoluteCapacity
  | .standbyAbsoluteCapacity => m.standbyAbsoluteCapacity
  | .activeRelativeCapacity => m.activeRelativeCapacity
  | .standbyRelativeCapacity => m.standbyRelativeCapacity
  | .status => m.status
  | .control => m.control
  | .specialFeature => m.specialFeature
  | .eeprom => m.eeprom
  | .accumulationBias => m.accumulationBias
  | .chargeVoltage => m.chargeVoltage
  | .minimumChargeCurrent => m.minimumChargeCurrent
  | .activeEmptyVoltage => m.activeEmptyVoltage
  | .activeEmptyCurrent => m.activeEmptyCurrent
  | .senseResistorPrime => m.senseResistorPrime
  | .senseResistorGain => m.senseResistorGain
  | .factoryGain => m.factoryGain
  | .userEeprom => m.userEeprom
  | .parameterEeprom => parameterEepromEntry
  | .functionCommand => functionCommandEntry

/-- The names of one view of the chip: all but the general view of the parameter block, which shares its storage with the
parameter registers (spec/20_memory.md R33). -/
def RegName.singleView : List RegName :=
  [.temperature, .voltage, .current, .averageCurrent, .accumulatedCurrent, .accumulatedCurrentLow, .activeAbsoluteCapacity,
   .standbyAbsoluteCapacity, .activeRelativeCapacity, .standbyRelativeCapacity, .status, .control, .specialFeature, .eeprom,
   .accumulationBias, .chargeVoltage, .minimumChargeCurrent, .activeEmptyVoltage, .activeEmptyCurrent, .senseResistorPrime,
   .senseResistorGain, .factoryGain, .userEeprom, .functionCommand]

/-- The registers of that view, with those the spec does not name. -/
def RegMap.singleView (m : RegMap) : List RegEntry := RegName.singleView.map m.entry ++ m.others

/-- Every register of the map. -/
def RegMap.entries (m : RegMap) : List RegEntry := parameterEepromEntry :: m.singleView

/-- The address past a register's last. -/
def RegEntry.past (e : RegEntry) : Nat := e.addr.toNat + e.width.bytes

/-- Do two registers share no address? -/
def RegEntry.apart (e f : RegEntry) : Bool := decide (e.past ≤ f.addr.toNat) || decide (f.past ≤ e.addr.toNat)

/-- Does a register lie within the parameter block? -/
def RegEntry.isParameter (e : RegEntry) : Bool :=
  decide (parameterEepromEntry.addr.toNat ≤ e.addr.toNat) && decide (e.past ≤ parameterEepromEntry.past)

/-- Does the register occupy address `a`? A register of width n occupies n consecutive addresses (spec/20_memory.md R31). -/
def RegEntry.covers (e : RegEntry) (a : Nat) : Bool :=
  decide (e.addr.toNat ≤ a) && decide (a < e.past)

/-- How many bytes an access of a width moves (spec/20_memory.md R41). -/
def accessBytes : RawWidth → Nat
  | .w8 => 1
  | .w16 => 2

/-- The address of an access at an offset, in bytes, within a register: a register of width n occupies n consecutive
addresses (spec/20_memory.md R31). -/
def RegEntry.addrAt (e : RegEntry) (offset : Nat) : Byte := BitVec.ofNat 8 (e.addr.toNat + offset)

/-- The width of the one access that moves a whole register; a wide register has no primitive of its own (spec/20_memory.md
R41). -/
def RegWidth.access? : RegWidth → Option RawWidth
  | .b1 => some .w8
  | .b2 => some .w16
  | .b8 | .b16 | .b32 => none

end Sys2Proof
end

