-- ==== Sys2Proof/Syntax.lean ====
section
/-!
DEFINITION. The instructions: one constructor per row of spec/opcode_table.json. The fourteen block operations carry
the operand bytes their request presents (spec/30_encoding.md R50, R54); the six function commands carry nothing
(R58). A decoder carries `DATA_1` alone, because `REQ[7:0]` is ignored in its request (R57); XAB keeps both bytes,
because its format is W when `FMT[AB].width` is 16 (R54, R59).
-/
namespace Sys2Proof

inductive Instr where
  | xvolt (data1 data2 : Byte)
  | rvolt (data1 data2 : Byte)
  | xtemp (data1 data2 : Byte)
  | xcurr (data1 data2 : Byte)
  | xiavg (data1 data2 : Byte)
  | xacr (data1 data2 : Byte)
  | xacrl (data1 data2 : Byte)
  | xab (data1 data2 : Byte)
  | xacap (data1 data2 : Byte)
  | xvsns (data1 data2 : Byte)
  | dstat (data1 : Byte)
  | dctrl (data1 : Byte)
  | dsfr (data1 : Byte)
  | deep (data1 : Byte)
  | copy0
  | copy1
  | recall0
  | recall1
  | lock0
  | lock1
deriving DecidableEq, Repr

end Sys2Proof
end

