-- ==== Sys2Proof/WellFormed.lean ====
section
/-!
DEFINITION. What a well-formed instruction is (every one: no operand bit is reserved, spec/00_scope.md R4,
spec/30_encoding.md R57), and which values of the OPEN parameters the spec admits.
-/
namespace Sys2Proof

/-- The spec admits every operand of every operation (spec/00_scope.md R4, spec/30_encoding.md R57). -/
def Instr.wellFormed : Instr → Bool
  | .xvolt _ _ | .rvolt _ _ | .xtemp _ _ | .xcurr _ _ | .xiavg _ _ => true
  | .xacr _ _ | .xacrl _ _ | .xab _ _ | .xacap _ _ | .xvsns _ _ => true
  | .dstat _ | .dctrl _ | .dsfr _ | .deep _ => true
  | .copy0 | .copy1 | .recall0 | .recall1 | .lock0 | .lock1 => true

/-- `STATUS_POS`: four distinct indices out of 1, 2, 3, 4, 5, 7 (spec/10_state.md R22). -/
def StatusPos.wellFormed (p : StatusPos) : Bool :=
  decide [p.aef, p.sef, p.learnf, p.porf].Nodup &&
    [p.aef, p.sef, p.learnf, p.porf].all fun i => i != 0 && i != 6

/-- A field table is an injective map from names to bit indices (spec/10_state.md R22). -/
def FieldTable.wellFormed (t : FieldTable) : Bool :=
  decide (t.map (·.1)).Nodup && decide (t.map (·.2)).Nodup

/-- A register lies in 0x00..0xFF (R31), and a parameter register is one whole within the parameter block (R33: parameter
addresses are a subset of the general address space). -/
def RegEntry.wellFormed (e : RegEntry) : Bool :=
  decide (e.past ≤ 256) && (e.isParameter || e.apart parameterEepromEntry)

/-- No two registers alias, but for the parameter block and its general view (spec/20_memory.md R33, R34). So no other register
covers 0xFE. -/
def RegMap.noAlias (m : RegMap) : Bool := decide (m.singleView.Pairwise fun e f => e.apart f = true)

/-- Where the spec puts registers whose address it leaves OPEN: control, accumulation bias and charge voltage are fields of the
parameter block (spec/20_memory.md R33, spec/41_bitfield.md R93). -/
def RegMap.fixedPlaces (m : RegMap) : Bool :=
  [m.control, m.accumulationBias, m.chargeVoltage].all RegEntry.isParameter

/-- The widths the spec fixes: a byte for the four decoded registers (spec/41_bitfield.md R92 to R95) and relative capacity
(spec/92_eei_decisions.md D14), a word for voltage (spec/30_encoding.md R61). A tunable parameter has an accessor of one
transaction (spec/20_memory.md R46), so it is no wider than one access (R41); user EEPROM holds words, reached by offset. -/
def RegMap.fixedWidths (m : RegMap) : Bool :=
  ([m.status, m.control, m.specialFeature, m.eeprom, m.activeRelativeCapacity, m.standbyRelativeCapacity].all
      fun e => e.width == .b1) && m.voltage.width == .b2 &&
    ([m.chargeVoltage, m.minimumChargeCurrent, m.activeEmptyVoltage, m.activeEmptyCurrent, m.senseResistorPrime,
      m.senseResistorGain, m.factoryGain].all fun e => e.width.access?.isSome) && m.userEeprom.width != .b1

/-- The read/write registers the spec names: accumulated current and the fields of the parameter block (spec/20_memory.md R42,
R33), and the tunable parameters (R46). -/
def RegName.readWrite : List RegName :=
  [.accumulatedCurrent, .control, .accumulationBias, .chargeVoltage, .minimumChargeCurrent, .activeEmptyVoltage,
   .activeEmptyCurrent, .senseResistorPrime, .senseResistorGain, .userEeprom]

/-- The access modes the spec fixes: those registers are R/W, factory gain is R (spec/20_memory.md R46), and every register whose
content an accessor returns, a conversion converts or a decoder decodes can be read (R45, R46): all but the function-command
register. -/
def RegMap.fixedModes (m : RegMap) : Bool :=
  (RegName.readWrite.all fun n => (m.entry n).access == .rw) && m.factoryGain.access == .r &&
    RegName.singleView.all fun n => n == .functionCommand || (m.entry n).access != .w

/-- What the spec fixes of registers whose address it leaves OPEN (log entry 26). -/
def RegMap.fixedParts (m : RegMap) : Bool := m.fixedPlaces && m.fixedWidths && m.fixedModes

/-- An accessor's read, `FMT[q].width` wide, stays within its register (spec/30_encoding.md R61; the sense-resistor voltage is
in the current register's word, spec/40_conversion.md R76). -/
def Params.readsFit (p : Params) : Bool :=
  [(RegName.voltage, Quantity.volt), (.current, .curr), (.current, .vsns), (.temperature, .temp),
    (.activeAbsoluteCapacity, .acap), (.standbyAbsoluteCapacity, .acap)].all fun x =>
      decide (accessBytes (p.format x.2).width ≤ (p.regmap.entry x.1).width.bytes)

def Params.regmapWellFormed (p : Params) : Bool :=
  p.regmap.singleView.all RegEntry.wellFormed && p.regmap.noAlias && p.regmap.fixedParts && p.readsFit

/-- No register is at a reserved address (spec/20_memory.md R32), the parameter block 0x60..0x7F and the function-command
register 0xFE among them (R35). -/
def Params.reservedWellFormed (p : Params) : Bool :=
  p.reserved.all fun a =>
    p.regmap.entries.all fun e => !e.covers a.toNat

/-- The admitted values of the OPEN parameters. -/
def Params.wellFormed (p : Params) : Bool :=
  p.statusPos.wellFormed && FieldTable.wellFormed p.controlFields && FieldTable.wellFormed p.sfrFields &&
    FieldTable.wellFormed p.eepromFields && p.regmapWellFormed && p.reservedWellFormed

end Sys2Proof
end

