-- ==== Sys2Proof/Decode.lean ====
section
/-!
DEFINITION. The decoder of request words and function-command bytes, total, refusing by name, and the encoder written from
the same table (spec/30_encoding.md R50, R54, R58).
-/
namespace Sys2Proof

/-- The word an instruction stands in: a 24-bit request (formats W and B) or a command byte (format FC). -/
inductive CodeWord where
  | request (req : RequestWord)
  | command (cmd : Byte)
deriving DecidableEq, Repr

/-- Why a word is no instruction. -/
inductive DecodeError where
  /-- `OPSEL` is one of the reserved codes of spec/30_encoding.md R55. -/
  | reservedOpsel (opsel : Byte)
  /-- The byte is none of the six commands of spec/30_encoding.md R58. -/
  | unknownCommand (cmd : Byte)
deriving DecidableEq, Repr

/-- `OPSEL = REQ[23:16]` (spec/30_encoding.md R50). -/
def opselOf (req : RequestWord) : Byte := req.extractLsb' 16 8

/-- `DATA_1 = REQ[15:8]`. -/
def data1Of (req : RequestWord) : Byte := req.extractLsb' 8 8

/-- `DATA_2 = REQ[7:0]`. -/
def data2Of (req : RequestWord) : Byte := req.extractLsb' 0 8

/-- The operation map of spec/30_encoding.md R54; every other code is reserved (R55). -/
def decodeRequest (req : RequestWord) : Except DecodeError Instr :=
  match (opselOf req).toNat with
  | 0x00 => .ok (.xvolt (data1Of req) (data2Of req))
  | 0x01 => .ok (.rvolt (data1Of req) (data2Of req))
  | 0x02 => .ok (.xtemp (data1Of req) (data2Of req))
  | 0x03 => .ok (.xcurr (data1Of req) (data2Of req))
  | 0x04 => .ok (.xiavg (data1Of req) (data2Of req))
  | 0x05 => .ok (.xacr (data1Of req) (data2Of req))
  | 0x06 => .ok (.xacrl (data1Of req) (data2Of req))
  | 0x07 => .ok (.xab (data1Of req) (data2Of req))
  | 0x08 => .ok (.xacap (data1Of req) (data2Of req))
  | 0x09 => .ok (.xvsns (data1Of req) (data2Of req))
  | 0x10 => .ok (.dstat (data1Of req))
  | 0x11 => .ok (.dctrl (data1Of req))
  | 0x12 => .ok (.dsfr (data1Of req))
  | 0x13 => .ok (.deep (data1Of req))
  | _ => .error (.reservedOpsel (opselOf req))

/-- The six accepted opcodes of spec/30_encoding.md R58. -/
def decodeCommand (cmd : Byte) : Except DecodeError Instr :=
  match cmd.toNat with
  | 0x42 => .ok .copy0
  | 0x44 => .ok .copy1
  | 0xB2 => .ok .recall0
  | 0xB4 => .ok .recall1
  | 0x63 => .ok .lock0
  | 0x66 => .ok .lock1
  | _ => .error (.unknownCommand cmd)

def decode : CodeWord → Except DecodeError Instr
  | .request req => decodeRequest req
  | .command cmd => decodeCommand cmd

/-- A request word with its three fields (spec/30_encoding.md R50). -/
def requestWord (opsel data1 data2 : Byte) : RequestWord := opsel ++ data1 ++ data2

/-- The word of an instruction. The ignored `REQ[7:0]` of a decoder request is sent as zero (R57). -/
def encode : Instr → CodeWord
  | .xvolt d1 d2 => .request (requestWord 0x00 d1 d2)
  | .rvolt d1 d2 => .request (requestWord 0x01 d1 d2)
  | .xtemp d1 d2 => .request (requestWord 0x02 d1 d2)
  | .xcurr d1 d2 => .request (requestWord 0x03 d1 d2)
  | .xiavg d1 d2 => .request (requestWord 0x04 d1 d2)
  | .xacr d1 d2 => .request (requestWord 0x05 d1 d2)
  | .xacrl d1 d2 => .request (requestWord 0x06 d1 d2)
  | .xab d1 d2 => .request (requestWord 0x07 d1 d2)
  | .xacap d1 d2 => .request (requestWord 0x08 d1 d2)
  | .xvsns d1 d2 => .request (requestWord 0x09 d1 d2)
  | .dstat d1 => .request (requestWord 0x10 d1 0)
  | .dctrl d1 => .request (requestWord 0x11 d1 0)
  | .dsfr d1 => .request (requestWord 0x12 d1 0)
  | .deep d1 => .request (requestWord 0x13 d1 0)
  | .copy0 => .command 0x42
  | .copy1 => .command 0x44
  | .recall0 => .command 0xB2
  | .recall1 => .command 0xB4
  | .lock0 => .command 0x63
  | .lock1 => .command 0x66

/-- The word the opcode table numbers: a row of at most 8 bits is a command byte, any other a request. -/
def tableWord (nbits w : Nat) : CodeWord :=
  if nbits ≤ 8 then .command (BitVec.ofNat 8 w) else .request (BitVec.ofNat 24 w)

def decodeTableWord (nbits w : Nat) : Option Instr :=
  (decode (tableWord nbits w)).toOption

end Sys2Proof
end

