-- ==== Sys2Proof/Machine/Arith.lean ====
section
/-!
DEFINITION. Arithmetic in the numeric domain `Num` (spec/40_conversion.md R65, R66, R81): exact rationals, and the IEEE 754
formats binary32 and binary64 with one rounding per operation, to nearest, ties to even. PRESUMED (log entry 14): the
formats themselves and their default handling of infinities and NaNs, as the spec's G15 supplies them.
-/
namespace Sys2Proof

/-- A binary interchange format: the widths of its exponent and fraction fields. -/
structure FloatFormat where
  expBits  : Nat
  fracBits : Nat
deriving DecidableEq, Repr

def binary32 : FloatFormat := ⟨8, 23⟩

def binary64 : FloatFormat := ⟨11, 52⟩

/-- The biased exponent of infinities and NaNs. -/
def FloatFormat.expOnes (f : FloatFormat) : Nat := 2 ^ f.expBits - 1

/-- The exponent of the smallest normal number. -/
def FloatFormat.minExp (f : FloatFormat) : Int := 2 - (2 ^ (f.expBits - 1) : Nat)

/-- What a bit pattern stands for. `fin` keeps the sign apart from the magnitude, so that zeros keep theirs. -/
inductive Datum where
  | nan
  | inf (neg : Bool)
  | fin (neg : Bool) (mag : Rat)
deriving DecidableEq, Repr

/-- `n * 2 ^ k`. -/
def dyadic (n : Nat) (k : Int) : Rat := mkRat (n * 2 ^ k.toNat) (2 ^ (-k).toNat)

/-- The sign bit in its place. -/
def FloatFormat.signBit (f : FloatFormat) (neg : Bool) : Nat :=
  if neg then 2 ^ (f.expBits + f.fracBits) else 0

def FloatFormat.datum (f : FloatFormat) (bits : Nat) : Datum :=
  let frac := bits % 2 ^ f.fracBits
  let e := bits / 2 ^ f.fracBits % 2 ^ f.expBits
  let neg := decide (bits / 2 ^ (f.expBits + f.fracBits) % 2 = 1)
  if e = f.expOnes then (if frac = 0 then .inf neg else .nan)
  else if e = 0 then .fin neg (dyadic frac (f.minExp - f.fracBits))
  else .fin neg (dyadic (2 ^ f.fracBits + frac) (f.minExp - f.fracBits + (e - 1 : Nat)))

/-- The integer nearest to `a / b`, a tie going to the even one (R66). -/
def nearestEven (a b : Nat) : Nat :=
  let n := a / b
  let r := a % b
  if 2 * r < b then n
  else if b < 2 * r then n + 1
  else if n % 2 = 0 then n else n + 1

/-- The largest `e` with `2 ^ e ≤ a / b`, for positive `a` and `b`. -/
def binaryExponent (a b : Nat) : Int :=
  let e : Int := (a.log2 : Int) - (b.log2 : Int)
  if b * 2 ^ e.toNat ≤ a * 2 ^ (-e).toNat then e else e - 1

/-- The pattern, less its sign, of the magnitude `q ≥ 0` rounded to nearest, ties to even (R66). The fraction field counts
units of the last place, so a carry out of it raises the exponent, and a magnitude past the largest finite one becomes
infinity. -/
def FloatFormat.roundMagnitude (f : FloatFormat) (q : Rat) : Nat :=
  let a := q.num.natAbs
  let b := q.den
  if a = 0 then 0
  else
    let e := max (binaryExponent a b) f.minExp
    let k := e - f.fracBits
    let n := nearestEven (a * 2 ^ (-k).toNat) (b * 2 ^ k.toNat)
    min ((e - f.minExp).toNat * 2 ^ f.fracBits + n) (f.expOnes * 2 ^ f.fracBits)

/-- A NaN: free sign and fraction (log entry 14), never the fraction zero of an infinity. -/
def FloatFormat.nan (f : FloatFormat) : Nat :=
  f.signBit Config.nanSign + f.expOnes * 2 ^ f.fracBits + (1 + Config.nanPayload % (2 ^ f.fracBits - 1))

/-- The pattern of a datum, its magnitude rounded once. -/
def FloatFormat.encode (f : FloatFormat) : Datum → Nat
  | .nan => f.nan
  | .inf neg => f.signBit neg + f.expOnes * 2 ^ f.fracBits
  | .fin neg mag => f.signBit neg + f.roundMagnitude mag

/-- The product before rounding. -/
def Datum.mul : Datum → Datum → Datum
  | .nan, _ => .nan
  | _, .nan => .nan
  | .inf s, .inf t => .inf (s != t)
  | .inf s, .fin t m => if m = 0 then .nan else .inf (s != t)
  | .fin s m, .inf t => if m = 0 then .nan else .inf (s != t)
  | .fin s m, .fin t n => .fin (s != t) (m * n)

/-- The quotient before rounding. -/
def Datum.div : Datum → Datum → Datum
  | .nan, _ => .nan
  | _, .nan => .nan
  | .inf _, .inf _ => .nan
  | .inf s, .fin t _ => .inf (s != t)
  | .fin s _, .inf t => .fin (s != t) 0
  | .fin s m, .fin t n => if n = 0 then (if m = 0 then .nan else .inf (s != t)) else .fin (s != t) (m / n)

/-- One multiplication, rounded once. -/
def FloatFormat.mul (f : FloatFormat) (x y : Nat) : Nat := f.encode ((f.datum x).mul (f.datum y))

/-- One division, rounded once. -/
def FloatFormat.div (f : FloatFormat) (x y : Nat) : Nat := f.encode ((f.datum x).div (f.datum y))

/-- The round-to-nearest-even value of a rational (R66: how a constant is represented, and `num(raw)`). -/
def FloatFormat.ofRat (f : FloatFormat) (q : Rat) : Nat := f.encode (.fin (decide (q < 0)) (mkRat q.num.natAbs q.den))

/-- Unary minus flips the sign bit (R66). -/
def FloatFormat.neg (f : FloatFormat) (x : Nat) : Nat := x ^^^ 2 ^ (f.expBits + f.fracBits)

/-- Is the pattern a finite number other than zero? -/
def FloatFormat.finiteNonzero (f : FloatFormat) (x : Nat) : Bool :=
  match f.datum x with
  | .fin _ m => m.num != 0
  | _ => false

/-- A rational as a `Num` of the format (R66). -/
def NumVal.ofRat (fmt : NumFormat) (q : Rat) : NumVal :=
  match fmt with
  | .exact => .exact q
  | .binary32 => .b32 (BitVec.ofNat 32 (binary32.ofRat q))
  | .binary64 => .b64 (BitVec.ofNat 64 (binary64.ofRat q))

/-- `num(raw) * FACTOR[q]` (R65): one multiplication in the format. -/
def NumVal.scale (fmt : NumFormat) (raw : Int) (factor : Rat) : NumVal :=
  match fmt with
  | .exact => .exact ((raw : Rat) * factor)
  | .binary32 => .b32 (BitVec.ofNat 32 (binary32.mul (binary32.ofRat raw) (binary32.ofRat factor)))
  | .binary64 => .b64 (BitVec.ofNat 64 (binary64.mul (binary64.ofRat raw) (binary64.ofRat factor)))

/-- `- a` on `Num` (R66). -/
def NumVal.neg : NumVal → NumVal
  | .exact q => .exact (-q)
  | .b32 x => .b32 (BitVec.ofNat 32 (binary32.neg x.toNat))
  | .b64 x => .b64 (BitVec.ofNat 64 (binary64.neg x.toNat))

/-- Can the value be the sense resistance of a block whose results are in the format? Any finite value of that format
other than zero (spec/10_state.md R11, spec/60_exceptions.md R120, D5). -/
def NumVal.admissible : NumFormat → NumVal → Bool
  | .exact, .exact q => q.num != 0
  | .binary32, .b32 x => binary32.finiteNonzero x.toNat
  | .binary64, .b64 x => binary64.finiteNonzero x.toNat
  | _, _ => false

/-- `a / r` on `Num` (R65): one division. There is none by a value that is no admitted sense resistance of the dividend's
format (spec/60_exceptions.md R120: no current-family rule ever divides by zero). -/
def NumVal.quotient? : NumVal → NumVal → Option NumVal
  | .exact a, .exact r => if r.num = 0 then none else some (.exact (a / r))
  | .b32 x, .b32 r =>
    if binary32.finiteNonzero r.toNat then some (.b32 (BitVec.ofNat 32 (binary32.div x.toNat r.toNat))) else none
  | .b64 x, .b64 r =>
    if binary64.finiteNonzero r.toNat then some (.b64 (BitVec.ofNat 64 (binary64.div x.toNat r.toNat))) else none
  | _, _ => none

/-- `num(1) / rsns` (spec/10_state.md R12). -/
def NumVal.reciprocal? (fmt : NumFormat) (r : NumVal) : Option NumVal := (NumVal.ofRat fmt 1).quotient? r

/-- The rational a datum stands for; an infinity or a NaN stands for none, and both zeros for 0. -/
def Datum.value? : Datum → Option Rat
  | .nan => none
  | .inf _ => none
  | .fin neg mag => some (if neg then -mag else mag)

/-- The rational a `Num` stands for, if it is finite: numeric comparison is equality of these (R68). -/
def NumVal.value? : NumVal → Option Rat
  | .exact q => some q
  | .b32 x => (binary32.datum x.toNat).value?
  | .b64 x => (binary64.datum x.toNat).value?

end Sys2Proof
end

