-- ==== Sys2Proof/Machine/State.lean ====
section
/-!
DEFINITION. The state of the machine: the block's configuration (spec/10_state.md R10 to R22), the environment's device
address and register space (spec/20_memory.md R30, R31), the host's pending calls and what the machine has put out. The
outcomes a step can stop with, and the state after reset.
-/
namespace Sys2Proof.Machine

/-- The eight outputs of a decoder, `B[7..0]` (spec/41_bitfield.md R90). -/
structure FlagBits where
  b7 : Bool
  b6 : Bool
  b5 : Bool
  b4 : Bool
  b3 : Bool
  b2 : Bool
  b1 : Bool
  b0 : Bool
deriving DecidableEq, Repr

/-- The structured view: one Bool per bit plus names (spec/00_scope.md section 6, spec/41_bitfield.md R90). -/
structure StructuredView where
  bits  : FlagBits
  named : List (FlagName × Bool)
deriving DecidableEq, Repr

/-- The response `RSP` (spec/30_encoding.md R56). `VALID` is 0 exactly for `invalid`, where `KIND`, `VALUE` and `FLAGS` are
undefined and the model has no value for them (log entry 6, safe). -/
inductive Response where
  | invalid
  | num (value : NumVal)
  | flags (view : StructuredView)
deriving DecidableEq, Repr

/-- The result of a protocol read (spec/20_memory.md R36, R37). -/
inductive RawValue where
  | byte (b : Byte)
  | word (w : Word16)
deriving DecidableEq, Repr

/-- What stands on the two-wire bus, in the source's own symbols (spec/20_memory.md R36 to R39). -/
inductive BusSymbol where
  | start
  | addrW (device : BitVec 7)
  | addrR (device : BitVec 7)
  | regAddr (a : Byte)
  | phaseEnd (e : PhaseEnd)
  | data (b : Byte)
  | stop
deriving DecidableEq, Repr

/-- One bus transaction, its symbols in time order. -/
abbrev Transaction := List BusSymbol

/-- Chip registers whose content the environment knows, as (address, byte) pairs with rising addresses. An address that is
not listed holds what the chip decides: a free byte (log entry 9). -/
abbrev Memory := List Host.Cell

/-- The canonical form of `Memory`: addresses strictly rising, all within 0x00..0xFF (spec/20_memory.md R31). -/
abbrev Memory.wf (m : Memory) : Prop :=
  (m.map Prod.fst).Pairwise (· < ·) ∧ ∀ c ∈ m, c.1 < 256

/-- The accessors of spec/30_encoding.md R61: one register read, then one block request. -/
inductive Reading where
  | voltage
  | current
  | temperature
  | senseVoltage
  | activeAbsoluteCapacity
  | standbyAbsoluteCapacity
deriving DecidableEq, Repr

/-- What the host does next (spec/20_memory.md R46, R47), or what the chip does on its own between two host calls. -/
inductive HostCall where
  /-- One request to the block (spec/30_encoding.md R50). -/
  | request (req : RequestWord)
  /-- The transaction protocol (spec/20_memory.md R36 to R39). A byte written to 0xFE is a function command (R58). -/
  | readByte (a : Byte)
  | readWord (a : Byte)
  | writeByte (a : Byte) (v : Byte)
  | writeWord (a : Byte) (v : Word16)
  /-- COPY(N), RECALL(N), LOCK(N) (spec/42_function_commands.md R101 to R104); N is an Int (D26). -/
  | copyBlock (n : Int)
  | recallBlock (n : Int)
  | lockBlock (n : Int)
  /-- An accessor of spec/30_encoding.md R61. -/
  | reading (r : Reading)
  /-- The register accessors that bypass the block (spec/20_memory.md R46). -/
  | readRegister (name : RegName)
  | writeRegister (name : RegName) (v : Word16)
  /-- One byte or one word of a register at an offset within it: how a wide register is reached (spec/20_memory.md R41, R46). -/
  | readRegisterAt (name : RegName) (width : RawWidth) (offset : Nat)
  | writeRegisterAt (name : RegName) (width : RawWidth) (offset : Nat) (v : Word16)
  /-- The chip changes the byte at an address on its own (spec/20_memory.md R42, R47; log entry 11). -/
  | chipUpdate (a : Byte)
deriving DecidableEq, Repr

structure State where
  /-- `RSNS`, the sense resistance in ohms (spec/10_state.md R11). -/
  rsns       : NumVal
  /-- `RSNS_MHO`, its cached reciprocal (R12). -/
  rsnsMho    : NumVal
  /-- The constant tables and every OPEN parameter (R13 to R18, R22). -/
  params     : Params
  /-- The chip's bus address (spec/20_memory.md R30). -/
  deviceAddr : BitVec 7
  /-- The chip's register space, as far as it is known (spec/20_memory.md R31, R42). -/
  mem        : Memory
  /-- The host's calls not yet made, in program order (spec/20_memory.md R47; the model's own field, log entry 2). -/
  inputs     : List HostCall
  /-- The response port; `none` while it is undriven (spec/10_state.md R25, spec/30_encoding.md R56). -/
  rsp        : Option Response
  /-- What the last protocol call returned, if it returned anything (the model's own field, log entry 7). -/
  ret        : Option RawValue
  /-- The bus transactions performed, oldest first (the model's own output record, log entry 8). -/
  bus        : List Transaction
  /-- Has a function command been sent? From then on the chip may act at any time, and nothing written to it is known to stay
  (spec/70_reset_and_hazards.md R131, spec/93 U13; log entry 12). -/
  chipUnsettled : Bool
  /-- How many free bytes of the chip have been drawn (the model's own field, log entry 9). -/
  draws      : Nat
deriving DecidableEq, Repr

/-- No exception exists: the list of causes is empty (spec/60_exceptions.md R110), so there is no fault. -/
inductive Fault where
deriving DecidableEq, Repr

inductive Refusal where
  /-- Raised by `exec` alone, for an instruction that has no meaning yet; there is none. Safe: the run stops. -/
  | notModelled (mnemonic : String)
  /-- Raised by a protocol call at a reserved address, which must never be read or written (spec/20_memory.md R32, U6). Safe. -/
  | reservedAddress (a : Nat)
  /-- Raised by a word access at 0xFF, whose second byte is past the end of the space (spec/20_memory.md R43). Safe. -/
  | wordPastEnd
  /-- Raised by a read of a write-only register, 0xFE among them (spec/42_function_commands.md R100). Safe. -/
  | readOfWriteOnly (a : Nat)
  /-- Raised by a write of a read-only register, no defined operation by its access mode (spec/20_memory.md R31, log entry 18). Safe. -/
  | writeOfReadOnly (a : Nat)
  /-- Raised by a byte written to 0xFE, alone or in a word, that is none of the six commands (spec/42_function_commands.md
  R106, spec/93 U1). Safe. -/
  | unknownCommand (cmd : Byte)
  /-- Raised by an access to the whole of a register of 8, 16 or 32 bytes, which has no primitive of its own (spec/20_memory.md R41). Safe. -/
  | noPrimitive (width : RegWidth)
  /-- Raised by an access at an offset that does not lie in the register (spec/20_memory.md R31). Safe. -/
  | pastEndOfRegister (name : RegName) (offset : Nat)
  /-- Raised by construction with a sense resistance that is not admitted, and by a current-family conversion in a state
  that holds one, which no constructed block does (spec/60_exceptions.md R120). Safe. -/
  | senseResistorNotAdmitted
  /-- Raised by construction with OPEN parameters outside what the spec admits (spec/10_state.md R22). Safe. -/
  | parametersNotAdmitted
deriving DecidableEq, Repr

/-- A block just constructed with the arguments of the source's scenario S9: address 0x34 (the default of
spec/20_memory.md R30), `RSNS` = 0.02 ohm (DESIGN CHOICE, log entry 3: it is the construction argument), the spec's
defaults for the OPEN parameters (log entries 4 and 28). No request has been made, so the response port is undriven
(spec/10_state.md R25). -/
def State.reset : State where
  rsns := .exact (mkRat 1 50)
  rsnsMho := .exact 50
  params := Params.default
  deviceAddr := 0x34
  mem := []
  inputs := []
  rsp := none
  ret := none
  bus := []
  chipUnsettled := false
  draws := 0

end Sys2Proof.Machine
end

