-- ==== Sys2Proof/Machine/Flags.lean ====
section
/-!
DEFINITION. The decoders' bit and flag computation (spec/41_bitfield.md R90 to R97). The block itself has no flags
(spec/10_state.md R21): these are data unpacked from a byte.
-/
namespace Sys2Proof.Machine

/-- `B[i] = (b >> i) & 1` (R90). -/
def bitOf (b : Byte) (i : Nat) : Bool := (b >>> i) &&& 1 == 1

/-- The eight outputs for a byte (R90). The four decoders share it (R97). -/
def unpackByte (b : Byte) : FlagBits where
  b7 := bitOf b 7
  b6 := bitOf b 6
  b5 := bitOf b 5
  b4 := bitOf b 4
  b3 := bitOf b 3
  b2 := bitOf b 2
  b1 := bitOf b 1
  b0 := bitOf b 0

/-- Output i of a view. -/
def FlagBits.bit (v : FlagBits) (i : Fin 8) : Bool :=
  match i with
  | 0 => v.b0
  | 1 => v.b1
  | 2 => v.b2
  | 3 => v.b3
  | 4 => v.b4
  | 5 => v.b5
  | 6 => v.b6
  | 7 => v.b7

/-- `pack(B)`: the sum of `B[i] * 2^i` (R96). No operation of the block packs; it is the consumer's inverse. -/
def packBits (v : FlagBits) : Byte :=
  BitVec.ofNat 8 (v.b0.toNat + v.b1.toNat * 2 + v.b2.toNat * 4 + v.b3.toNat * 8 + v.b4.toNat * 16 + v.b5.toNat * 32 +
    v.b6.toNat * 64 + v.b7.toNat * 128)

/-- The structured view of a byte under a register's position table: flag `F` is the alias `B[POS[F]]` (R90). -/
def structuredView (table : FieldTable) (b : Byte) : StructuredView where
  bits := unpackByte b
  named := table.map fun f => (f.1, (unpackByte b).bit f.2)

/-- The value of a named flag in a view, if the register's table names it. -/
def StructuredView.flag? (v : StructuredView) (name : FlagName) : Option Bool :=
  (v.named.find? fun f => f.1 == name).map (·.2)

end Sys2Proof.Machine
end

