-- ==== Sys2Proof/Machine/Operands.lean ====
section
/-!
DEFINITION. The operand forms: a request's raw word or byte and the integer it stands for (spec/30_encoding.md R51 to R53).
-/
namespace Sys2Proof

/-- `RAW16 = DATA_1 ++ DATA_2`: the first byte received is the most significant (R51, spec/20_memory.md R40). -/
def raw16 (data1 data2 : Byte) : Word16 := data1 ++ data2

/-- `RAW8 = DATA_1` (R52). -/
def raw8 (data1 : Byte) : Byte := data1

/-- `sext_N(v)`: the two's-complement reading (R53; the spec's D11, PRESUMED there from general knowledge, log entry 16). -/
def sextInt {n : Nat} (v : BitVec n) : Int := if v.toNat < 2 ^ (n - 1) then (v.toNat : Int) else (v.toNat : Int) - 2 ^ n

/-- `zext_N(v)` (R53). -/
def zextInt {n : Nat} (v : BitVec n) : Int := (v.toNat : Int)

/-- The integer value of raw bits, signed or not (R53). -/
def extendInt {n : Nat} (signed : Bool) (v : BitVec n) : Int := if signed then sextInt v else zextInt v

/-- The operand of a conversion whose quantity has the raw format `f` (R50 to R53): a 16-bit format takes both bytes, an
8-bit one the first alone. -/
def rawValue (f : RawFormat) (data1 data2 : Byte) : Int :=
  match f.width with
  | .w16 => extendInt f.signed (raw16 data1 data2)
  | .w8 => extendInt f.signed (raw8 data1)

/-- The first byte of a 16-bit value on the bus, its most significant (spec/20_memory.md R39, R40). -/
def highByte (w : Word16) : Byte := w.extractLsb' 8 8

/-- The second byte of a 16-bit value on the bus. -/
def lowByte (w : Word16) : Byte := w.extractLsb' 0 8

end Sys2Proof
end

