-- ==== Sys2Proof/Machine/Ops.lean ====
section
/-!
DEFINITION. The named operations over the state: the response port, the conversions' common form, the chip's register
space, and the transactions on the bus. No exception is ever taken and none is returned from (spec/60_exceptions.md R110,
R115, R116); the one outcome of a request that carries no value is its refusal (R111).
-/
namespace Sys2Proof.Machine

/-- `RSP <- r`: drive the response port for this request (spec/30_encoding.md R56). -/
def State.respond (s : State) (r : Response) : State := { s with rsp := some r }

/-- The refusal of a request whose `OPSEL` is reserved: `VALID = 0`, and nothing else changes (spec/60_exceptions.md R111). -/
def refuseRequest (s : State) : State := s.respond .invalid

/-- `num(raw) * FACTOR[q]`: the transfer function of a quantity less its division, on every Int (spec/40_conversion.md R65, R77). -/
def transfer (p : Params) (q : Quantity) (raw : Int) : NumVal := NumVal.scale p.numFormat raw (p.factor q)

/-- The common form of a conversion (R65): at most one division, by `RSNS`, after the multiplication. `none` only where the
state holds a sense resistance no constructed block holds (spec/60_exceptions.md R120). -/
def convert? (s : State) (q : Quantity) (raw : Int) : Option NumVal :=
  if q.divByRsns then (transfer s.params q raw).quotient? s.rsns else some (transfer s.params q raw)

/-- The Int a conversion of quantity `q` reads from its two operand bytes (spec/30_encoding.md R53). -/
def operandOf (s : State) (q : Quantity) (data1 data2 : Byte) : Int := rawValue (s.params.format q) data1 data2

/-- Answer a request with the conversion of a quantity (R65). -/
def conversion (q : Quantity) (data1 data2 : Byte) (s : State) : Host.Outcome State Fault Refusal :=
  match convert? s q (operandOf s q data1 data2) with
  | some v => .next (s.respond (.num v))
  | none => .refused .senseResistorNotAdmitted

/-- Answer a request with the negated conversion of a quantity (R68). -/
def negatedConversion (q : Quantity) (data1 data2 : Byte) (s : State) : Host.Outcome State Fault Refusal :=
  match convert? s q (operandOf s q data1 data2) with
  | some v => .next (s.respond (.num v.neg))
  | none => .refused .senseResistorNotAdmitted

/-- Answer a request with the structured view of its byte (spec/41_bitfield.md R90). -/
def decodeView (table : FieldTable) (b : Byte) (s : State) : Host.Outcome State Fault Refusal :=
  .next (s.respond (.flags (structuredView table b)))

/-- The known content of an address. -/
def Memory.get? : Memory → Nat → Option Byte
  | [], _ => none
  | c :: t, a => if c.1 = a then some c.2 else Memory.get? t a

/-- The content of an address becomes known. -/
def Memory.set : Memory → Nat → Byte → Memory
  | [], a, b => [(a, b)]
  | c :: t, a, b => if a < c.1 then (a, b) :: c :: t else if a = c.1 then (a, b) :: t else c :: Memory.set t a b

/-- The content of an address is no longer known. -/
def Memory.forget (m : Memory) (a : Nat) : Memory := m.filter fun c => c.1 != a

/-- What an address that is not listed reads as: the chip's byte at draw `n`, a free value (log entry 9; spec/20_memory.md
R44, spec/93 U2, U3). -/
def unlistedByte (n : Nat) : Byte := Config.chipByte n

/-- The byte the chip answers for an address (spec/20_memory.md R42, R44). -/
def fetchByte (a : Nat) (s : State) : Byte × State :=
  match s.mem.get? a with
  | some b => (b, s)
  | none => (unlistedByte s.draws, { s with draws := s.draws + 1 })

/-- Do all the registers of `REGMAP` at address `a` have the access mode, and is there one? -/
def chipAccess (p : Params) (a : Nat) (m : Access) : Bool :=
  let es := p.regmap.entries.filter fun e => e.covers a
  !es.isEmpty && es.all fun e => e.access == m

/-- Is `a` reserved (spec/20_memory.md R32)? -/
def isReserved (p : Params) (a : Nat) : Bool := p.reserved.any fun r => r.toNat == a

/-- Is a read of `a` outside the modelled behaviour? A reserved address (R32), or a write-only register (spec/42 R100). -/
def readRefusal? (p : Params) (a : Nat) : Option Refusal :=
  if isReserved p a then some (.reservedAddress a)
  else if a = 0xFE ∨ chipAccess p a .w = true then some (.readOfWriteOnly a)
  else none

/-- Is a write of `a` outside the modelled behaviour? A reserved address (R32), or a read-only register (log entry 18). -/
def writeRefusal? (p : Params) (a : Nat) : Option Refusal :=
  if isReserved p a then some (.reservedAddress a)
  else if chipAccess p a .r = true then some (.writeOfReadOnly a)
  else none

/-- A byte was written to the chip: an R/W register holds it (spec/20_memory.md R42), unless a function command may still be
acting on the chip (spec/70_reset_and_hazards.md R131); of any other address nothing is known (log entry 10). -/
def storeByte (a : Nat) (b : Byte) (s : State) : State :=
  if chipAccess s.params a .rw && !s.chipUnsettled then { s with mem := s.mem.set a b } else { s with mem := s.mem.forget a }

/-- The bus frame of a read (spec/20_memory.md R36, R37). -/
def readFrame (s : State) (a : Byte) (data : List Byte) : Transaction :=
  [.start, .addrW s.deviceAddr, .regAddr a, .phaseEnd s.params.phaseEnd, .start, .addrR s.deviceAddr]
    ++ data.map .data ++ [.stop]

/-- The bus frame of a write (R38, R39). -/
def writeFrame (s : State) (a : Byte) (data : List Byte) : Transaction :=
  [.start, .addrW s.deviceAddr, .regAddr a] ++ data.map .data ++ [.stop]

/-- A transaction has been performed. -/
def State.onBus (s : State) (t : Transaction) : State := { s with bus := s.bus ++ [t] }

/-- The value a call returns to the host, or none. -/
def State.returning (s : State) (v : Option RawValue) : State := { s with ret := v }

/-- The chip has a function command: nothing is known of any of its registers, now or later (spec/93 U13,
spec/70_reset_and_hazards.md R131). -/
def State.disturbChip (s : State) : State := { s with mem := [], chipUnsettled := true }

/-- A function command: the byte is the data of one write to register 0xFE, nothing is returned, and the chip's registers
are unknown from then on (spec/30_encoding.md R58, spec/42_function_commands.md R100, R105, spec/93 U13). What the chip does with
the command is not modelled (log entry 12). -/
def functionCommand (cmd : Byte) (s : State) : Host.Outcome State Fault Refusal :=
  .next (((s.onBus (writeFrame s 0xFE [cmd])).disturbChip).returning none)

end Sys2Proof.Machine
end

