-- ==== Sys2Proof/Machine/Conversions.lean ====
section
/-!
DEFINITION. The conversion operations, OPSEL 0x00 to 0x09 (spec/40_conversion.md R67 to R76). Which factor, width, sign
and division an operation has is its quantity's row of spec/10_state.md R18.
-/
namespace Sys2Proof.Machine

/-- XVOLT (R67): volts, not negated, not divided. -/
def execXvolt (data1 data2 : Byte) (s : State) : Host.Outcome State Fault Refusal := conversion .volt data1 data2 s

/-- RVOLT (R68): the negated voltage transfer. -/
def execRvolt (data1 data2 : Byte) (s : State) : Host.Outcome State Fault Refusal := negatedConversion .volt data1 data2 s

/-- XTEMP (R69): degrees Celsius. -/
def execXtemp (data1 data2 : Byte) (s : State) : Host.Outcome State Fault Refusal := conversion .temp data1 data2 s

/-- XCURR (R70): milliamps, divided by `RSNS`. -/
def execXcurr (data1 data2 : Byte) (s : State) : Host.Outcome State Fault Refusal := conversion .curr data1 data2 s

/-- XIAVG (R71): milliamps, with the current factor, divided by `RSNS`. -/
def execXiavg (data1 data2 : Byte) (s : State) : Host.Outcome State Fault Refusal := conversion .iavg data1 data2 s

/-- XACR (R72): milliamp-hours, divided by `RSNS`. -/
def execXacr (data1 data2 : Byte) (s : State) : Host.Outcome State Fault Refusal := conversion .acr data1 data2 s

/-- XACRL (R73): milliamp-hours, divided by `RSNS`. -/
def execXacrl (data1 data2 : Byte) (s : State) : Host.Outcome State Fault Refusal := conversion .acrl data1 data2 s

/-- XAB (R74): milliamps, divided by `RSNS`; one byte by default, a word if `FMT[AB].width` is 16. -/
def execXab (data1 data2 : Byte) (s : State) : Host.Outcome State Fault Refusal := conversion .ab data1 data2 s

/-- XACAP (R75): milliamp-hours, independent of `RSNS`. -/
def execXacap (data1 data2 : Byte) (s : State) : Host.Outcome State Fault Refusal := conversion .acap data1 data2 s

/-- XVSNS (R76): millivolts across the sense resistor, not divided. -/
def execXvsns (data1 data2 : Byte) (s : State) : Host.Outcome State Fault Refusal := conversion .vsns data1 data2 s

end Sys2Proof.Machine
end

