-- ==== Sys2Proof/Machine/Decoders.lean ====
section
/-!
DEFINITION. The bitfield decode operations, OPSEL 0x10 to 0x13 (spec/41_bitfield.md R92 to R95).
-/
namespace Sys2Proof.Machine

/-- DSTAT (R92): CHGTF and UVF at the fixed positions, the other four by `STATUS_POS`. -/
def execDstat (data1 : Byte) (s : State) : Host.Outcome State Fault Refusal :=
  decodeView s.params.statusFields (raw8 data1) s

/-- DCTRL (R93). -/
def execDctrl (data1 : Byte) (s : State) : Host.Outcome State Fault Refusal :=
  decodeView s.params.controlFields (raw8 data1) s

/-- DSFR (R94). -/
def execDsfr (data1 : Byte) (s : State) : Host.Outcome State Fault Refusal :=
  decodeView s.params.sfrFields (raw8 data1) s

/-- DEEP (R95). -/
def execDeep (data1 : Byte) (s : State) : Host.Outcome State Fault Refusal :=
  decodeView s.params.eepromFields (raw8 data1) s

end Sys2Proof.Machine
end

