-- ==== Sys2Proof/Machine/FunctionCommands.lean ====
section
/-!
DEFINITION. The function commands (spec/42_function_commands.md R101 to R103): `MemWrite(0xFE, 1, CMD)`.
-/
namespace Sys2Proof.Machine

/-- COPY0 (R101): COPY of block 0. -/
def execCopy0 (s : State) : Host.Outcome State Fault Refusal := functionCommand 0x42 s

/-- COPY1 (R101): COPY of block 1. -/
def execCopy1 (s : State) : Host.Outcome State Fault Refusal := functionCommand 0x44 s

/-- RECALL0 (R102): RECALL of block 0. -/
def execRecall0 (s : State) : Host.Outcome State Fault Refusal := functionCommand 0xB2 s

/-- RECALL1 (R102): RECALL of block 1. -/
def execRecall1 (s : State) : Host.Outcome State Fault Refusal := functionCommand 0xB4 s

/-- LOCK0 (R103): LOCK of block 0. -/
def execLock0 (s : State) : Host.Outcome State Fault Refusal := functionCommand 0x63 s

/-- LOCK1 (R103): LOCK of block 1. -/
def execLock1 (s : State) : Host.Outcome State Fault Refusal := functionCommand 0x66 s

end Sys2Proof.Machine
end

