-- ==== Sys2Proof/Machine/Dispatch.lean ====
section
/-!
DEFINITION. One arm per instruction.
-/
namespace Sys2Proof.Machine

def exec (i : Instr) (s : State) : Host.Outcome State Fault Refusal :=
  match i with
  | .xvolt data1 data2 => Sys2Proof.Machine.execXvolt data1 data2 s
  | .rvolt data1 data2 => Sys2Proof.Machine.execRvolt data1 data2 s
  | .xtemp data1 data2 => Sys2Proof.Machine.execXtemp data1 data2 s
  | .xcurr data1 data2 => Sys2Proof.Machine.execXcurr data1 data2 s
  | .xiavg data1 data2 => Sys2Proof.Machine.execXiavg data1 data2 s
  | .xacr data1 data2 => Sys2Proof.Machine.execXacr data1 data2 s
  | .xacrl data1 data2 => Sys2Proof.Machine.execXacrl data1 data2 s
  | .xab data1 data2 => Sys2Proof.Machine.execXab data1 data2 s
  | .xacap data1 data2 => Sys2Proof.Machine.execXacap data1 data2 s
  | .xvsns data1 data2 => Sys2Proof.Machine.execXvsns data1 data2 s
  | .dstat data1 => Sys2Proof.Machine.execDstat data1 s
  | .dctrl data1 => Sys2Proof.Machine.execDctrl data1 s
  | .dsfr data1 => Sys2Proof.Machine.execDsfr data1 s
  | .deep data1 => Sys2Proof.Machine.execDeep data1 s
  | .copy0 => Sys2Proof.Machine.execCopy0 s
  | .copy1 => Sys2Proof.Machine.execCopy1 s
  | .recall0 => Sys2Proof.Machine.execRecall0 s
  | .recall1 => Sys2Proof.Machine.execRecall1 s
  | .lock0 => Sys2Proof.Machine.execLock0 s
  | .lock1 => Sys2Proof.Machine.execLock1 s

end Sys2Proof.Machine
end

