-- ==== Sys2Proof/Machine/Calls.lean ====
section
/-!
DEFINITION. What each host call does: a request to the block (spec/30_encoding.md R50 to R57), the transaction protocol
(spec/20_memory.md R36 to R43), the function commands with their block index (spec/42_function_commands.md R100 to R106),
and the accessors (spec/30_encoding.md R61, spec/20_memory.md R46).
-/
namespace Sys2Proof.Machine

/-- One request: the instruction its `OPSEL` selects, or the response `VALID = 0` (spec/30_encoding.md R54, R55). -/
def request (req : RequestWord) (s : State) : Host.Outcome State Fault Refusal :=
  match decode (.request req) with
  | .ok i => exec i s
  | .error _ => .next (refuseRequest s)

/-- A byte written to register 0xFE: one of the six commands, or chip-defined behaviour that is not modelled (R58, R106). -/
def command (cmd : Byte) (s : State) : Host.Outcome State Fault Refusal :=
  match decode (.command cmd) with
  | .ok i => exec i s
  | .error _ => .refused (.unknownCommand cmd)

/-- `MemRead(a, n)`: one read transaction of one or two bytes (spec/20_memory.md R36, R37, R40, R41). -/
def busRead (width : RawWidth) (a : Byte) (s : State) : Except Refusal (RawValue × State) :=
  match width with
  | .w8 =>
    match readRefusal? s.params a.toNat with
    | some r => .error r
    | none =>
      let (b, s1) := fetchByte a.toNat s
      .ok (.byte b, s1.onBus (readFrame s a [b]))
  | .w16 =>
    if a = 0xFF then .error .wordPastEnd
    else
      match readRefusal? s.params a.toNat, readRefusal? s.params (a.toNat + 1) with
      | some r, _ => .error r
      | none, some r => .error r
      | none, none =>
        let (b1, s1) := fetchByte a.toNat s
        let (b2, s2) := fetchByte (a.toNat + 1) s1
        .ok (.word (raw16 b1 b2), s2.onBus (readFrame s a [b1, b2]))

/-- A protocol read returns its value to the host. -/
def protocolRead (width : RawWidth) (a : Byte) (s : State) : Host.Outcome State Fault Refusal :=
  match busRead width a s with
  | .error r => .refused r
  | .ok (v, s1) => .next (s1.returning (some v))

/-- `writeByte(a, v)` (spec/20_memory.md R38); at 0xFE the byte is a function command (spec/42 R100). -/
def protocolWriteByte (a v : Byte) (s : State) : Host.Outcome State Fault Refusal :=
  if a = 0xFE then command v s
  else
    match writeRefusal? s.params a.toNat with
    | some r => .refused r
    | none => .next (((storeByte a.toNat v s).onBus (writeFrame s a [v])).returning none)

/-- Is a byte that would land at address `a` outside the modelled behaviour? At 0xFE all but the six commands are (spec/42
R106, spec/93 U1). -/
def landingRefusal? (p : Params) (a : Nat) (b : Byte) : Option Refusal :=
  if a = 0xFE then
    match decode (.command b) with
    | .ok _ => none
    | .error _ => some (.unknownCommand b)
  else writeRefusal? p a

/-- A byte lands at address `a`: at 0xFE it is a function command (spec/42 R100; in a word too, log entry 18). -/
def landByte (a : Nat) (b : Byte) (s : State) : State := if a = 0xFE then s.disturbChip else storeByte a b s

/-- `writeWord(a, v)`: the most significant byte first, at any address but 0xFF (spec/20_memory.md R39, R40, R43). -/
def protocolWriteWord (a : Byte) (v : Word16) (s : State) : Host.Outcome State Fault Refusal :=
  if a = 0xFF then .refused .wordPastEnd
  else
    match landingRefusal? s.params a.toNat (highByte v), landingRefusal? s.params (a.toNat + 1) (lowByte v) with
    | some r, _ => .refused r
    | none, some r => .refused r
    | none, none =>
      .next (((landByte (a.toNat + 1) (lowByte v) (landByte a.toNat (highByte v) s)).onBus
        (writeFrame s a [highByte v, lowByte v])).returning none)

/-- A function command with its block index: 0 or 1, and a silent no-op for any other (spec/42 R101 to R104). -/
def blockCommand (n : Int) (block0 block1 : Instr) (s : State) : Host.Outcome State Fault Refusal :=
  if n = 0 then exec block0 s
  else if n = 1 then exec block1 s
  else .next (s.returning none)

/-- The register an accessor reads (spec/30_encoding.md R61); the sense-resistor voltage is in the current register's word
(spec/40_conversion.md R76). -/
def Reading.register : Reading → RegName
  | .voltage => .voltage
  | .current => .current
  | .temperature => .temperature
  | .senseVoltage => .current
  | .activeAbsoluteCapacity => .activeAbsoluteCapacity
  | .standbyAbsoluteCapacity => .standbyAbsoluteCapacity

/-- The quantity whose format gives the width of an accessor's read (R61). -/
def Reading.quantity : Reading → Quantity
  | .voltage => .volt
  | .current => .curr
  | .temperature => .temp
  | .senseVoltage => .vsns
  | .activeAbsoluteCapacity => .acap
  | .standbyAbsoluteCapacity => .acap

/-- The request an accessor makes with the bytes it read (R61): the voltage accessor makes RVOLT. -/
def Reading.instr : Reading → Byte → Byte → Instr
  | .voltage => .rvolt
  | .current => .xcurr
  | .temperature => .xtemp
  | .senseVoltage => .xvsns
  | .activeAbsoluteCapacity => .xacap
  | .standbyAbsoluteCapacity => .xacap

/-- `DATA_1` of what a read returned (spec/20_memory.md R45). -/
def RawValue.data1 : RawValue → Byte
  | .byte b => b
  | .word w => highByte w

/-- `DATA_2` of what a read returned; after a byte read it is ignored (spec/30_encoding.md R57). -/
def RawValue.data2 : RawValue → Byte
  | .byte _ => 0
  | .word w => lowByte w

/-- Is a read of a register by its name undefined? Its own access mode decides (spec/20_memory.md R31, R46). -/
def nameReadRefusal? (e : RegEntry) : Option Refusal :=
  if e.access = .w then some (.readOfWriteOnly e.addr.toNat) else none

/-- Is a write of a register by its name undefined? Factory gain, for one, is read-only (spec/20_memory.md R46). -/
def nameWriteRefusal? (e : RegEntry) : Option Refusal :=
  if e.access = .r then some (.writeOfReadOnly e.addr.toNat) else none

/-- An accessor: one read transaction, then one request (R61). -/
def reading (r : Reading) (s : State) : Host.Outcome State Fault Refusal :=
  match nameReadRefusal? (s.params.regmap.entry r.register) with
  | some x => .refused x
  | none =>
    match busRead (s.params.format r.quantity).width (s.params.regmap.entry r.register).addr s with
    | .error x => .refused x
    | .ok (v, s1) => exec (r.instr v.data1 v.data2) (s1.returning (some v))

/-- A byte or a word of a register read at an offset, as the words of a wide register are (spec/20_memory.md R41, R46). It
bypasses the block. -/
def readRegisterAt (name : RegName) (width : RawWidth) (offset : Nat) (s : State) : Host.Outcome State Fault Refusal :=
  match nameReadRefusal? (s.params.regmap.entry name) with
  | some x => .refused x
  | none =>
    if offset + accessBytes width ≤ (s.params.regmap.entry name).width.bytes then
      protocolRead width ((s.params.regmap.entry name).addrAt offset) s
    else .refused (.pastEndOfRegister name offset)

/-- A byte or a word of a register written at an offset; a byte access takes the low byte of the value. -/
def writeRegisterAt (name : RegName) (width : RawWidth) (offset : Nat) (v : Word16) (s : State) :
    Host.Outcome State Fault Refusal :=
  match nameWriteRefusal? (s.params.regmap.entry name) with
  | some x => .refused x
  | none =>
    if offset + accessBytes width ≤ (s.params.regmap.entry name).width.bytes then
      match width with
      | .w8 => protocolWriteByte ((s.params.regmap.entry name).addrAt offset) (lowByte v) s
      | .w16 => protocolWriteWord ((s.params.regmap.entry name).addrAt offset) v s
    else .refused (.pastEndOfRegister name offset)

/-- A whole register read by its name (spec/20_memory.md R46). -/
def readRegister (name : RegName) (s : State) : Host.Outcome State Fault Refusal :=
  match (s.params.regmap.entry name).width.access? with
  | some width => readRegisterAt name width 0 s
  | none => .refused (.noPrimitive (s.params.regmap.entry name).width)

/-- A whole register written by its name; a one-byte register takes the low byte of the value. -/
def writeRegister (name : RegName) (v : Word16) (s : State) : Host.Outcome State Fault Refusal :=
  match (s.params.regmap.entry name).width.access? with
  | some width => writeRegisterAt name width 0 v s
  | none => .refused (.noPrimitive (s.params.regmap.entry name).width)

/-- The chip changed a byte on its own: what it holds is no longer known (spec/20_memory.md R42, R47; log entry 11). -/
def chipUpdate (a : Byte) (s : State) : State := { s with mem := s.mem.forget a.toNat }

/-- One call, finished before the next begins (spec/20_memory.md R47). -/
def perform (c : HostCall) (s : State) : Host.Outcome State Fault Refusal :=
  match c with
  | .request req => request req s
  | .readByte a => protocolRead .w8 a s
  | .readWord a => protocolRead .w16 a s
  | .writeByte a v => protocolWriteByte a v s
  | .writeWord a v => protocolWriteWord a v s
  | .copyBlock n => blockCommand n .copy0 .copy1 s
  | .recallBlock n => blockCommand n .recall0 .recall1 s
  | .lockBlock n => blockCommand n .lock0 .lock1 s
  | .reading r => reading r s
  | .readRegister name => readRegister name s
  | .writeRegister name v => writeRegister name v s
  | .readRegisterAt name width offset => readRegisterAt name width offset s
  | .writeRegisterAt name width offset v => writeRegisterAt name width offset v s
  | .chipUpdate a => .next (chipUpdate a s)

/-- The host call an instruction's word is presented by: a request to the block, or its byte written to register 0xFE
(spec/30_encoding.md R50, R58). -/
def callOf : CodeWord → HostCall
  | .request req => .request req
  | .command cmd => .writeByte 0xFE cmd

end Sys2Proof.Machine
end

