-- ==== Sys2Proof/Machine/Step.lean ====
section
/-!
DEFINITION. One step: the host's next call. The block fetches nothing and has no program counter (spec/10_state.md R20);
what runs next is what the host presents next (log entries 1 and 2).
-/
namespace Sys2Proof.Machine

/-- The next pending call is taken and performed; with none pending nothing happens. -/
def step (s : State) : Host.Outcome State Fault Refusal :=
  match s.inputs with
  | [] => .next s
  | c :: rest => perform c { s with inputs := rest }

/-- `s` with the instruction whose bits are `w` presented by the host as its next call. -/
def State.withFetchWord (s : State) (nbits w : Nat) : State :=
  { s with inputs := callOf (tableWord nbits w) :: s.inputs }

end Sys2Proof.Machine
end

