-- ==== Sys2Proof/Machine/Construct.lean ====
section
/-!
DEFINITION. Construction, the block's only reset (spec/70_reset_and_hazards.md R125).
-/
namespace Sys2Proof.Machine

/-- `construct(bus, addr, rsns)` (R125), with the OPEN parameters: refused where `rsns` is no admitted sense resistance
(spec/60_exceptions.md R120) or a parameter is outside what the spec admits. The bus handle is the transport's, which the
model does not hold. No bus transaction is made (R126). -/
def construct (addr : BitVec 7) (rsns : NumVal) (p : Params) : Host.Outcome State Fault Refusal :=
  if p.wellFormed then
    match NumVal.reciprocal? p.numFormat rsns with
    | none => .refused .senseResistorNotAdmitted
    | some mho =>
      .next { rsns := rsns, rsnsMho := mho, params := p, deviceAddr := addr, mem := [], inputs := [],
              rsp := none, ret := none, bus := [], chipUnsettled := false, draws := 0 }
  else .refused .parametersNotAdmitted

end Sys2Proof.Machine
end

