-- ==== Sys2Proof/Safety.lean ====
section
/-!
DEFINITION. The states a constructed block and its environment can be in.
-/
namespace Sys2Proof.Machine

/-- What construction sets and nothing changes afterwards (spec/00_scope.md R5, spec/10_state.md R11, R12): two states with
the same configuration belong to one instance. -/
def State.sameConfig (s t : State) : Prop :=
  s.rsns = t.rsns ∧ s.rsnsMho = t.rsnsMho ∧ s.params = t.params ∧ s.deviceAddr = t.deviceAddr

/-- The invariant of a constructed instance: admitted parameters, an admitted sense resistance, its reciprocal in
`RSNS_MHO` (spec/10_state.md R11, R12, R22), a canonical memory, no byte held known at an address that is not R/W
(spec/20_memory.md R42), and none at all once a function command has been sent (spec/70_reset_and_hazards.md R131). -/
structure State.Inv (s : State) : Prop where
  params_admitted : s.params.wellFormed = true
  rsns_admitted   : NumVal.admissible s.params.numFormat s.rsns = true
  mho_reciprocal  : NumVal.reciprocal? s.params.numFormat s.rsns = some s.rsnsMho
  mem_wf          : Memory.wf s.mem
  held_rw         : ∀ c ∈ s.mem, chipAccess s.params c.1 .rw = true
  unsettled_free  : s.chipUnsettled = true → s.mem = []

/-- A structured view of a byte under a position table, said without the model's unpacking (spec/41_bitfield.md R90):
output i is bit i of the byte, and each named flag is the bit at its position. -/
def IsViewOf (table : FieldTable) (b : Byte) (v : StructuredView) : Prop :=
  (∀ i : Fin 8, v.bits.bit i = b.getLsbD i) ∧ v.named = table.map fun f => (f.1, b.getLsbD f.2)

/-- A number that is not a NaN (spec/40_conversion.md R81). -/
def NotNaN : NumVal → Prop
  | .exact _ => True
  | .b32 x => binary32.datum x.toNat ≠ .nan
  | .b64 x => binary64.datum x.toNat ≠ .nan

/-- What a function command leaves (spec/42_function_commands.md R100, R101; spec/93 U13; log entry 12): one transaction
that carries the command byte to register 0xFE, nothing returned, nothing known of the chip's registers, then or later. -/
def commandSent (cmd : Byte) (s : State) : State :=
  { s with
    bus := s.bus ++ [[.start, .addrW s.deviceAddr, .regAddr 0xFE, .data cmd, .stop]]
    mem := []
    chipUnsettled := true
    ret := none }

end Sys2Proof.Machine
end

