-- ==== Sys2Proof/Certificates/Slice0/Obligations.lean ====
section
/-!
DEFINITION. The statements put to the provers.
-/
open Sys2Proof Sys2Proof.Machine

/-! Encoding -/

/-- spec/30_encoding.md R50, R54, R58: decoding the word of an instruction gives the instruction, at every operand. -/
def Obligations.DecodeOfEncodeIsIdentity : Prop :=
  ∀ i : Instr, i.wellFormed = true → decode (encode i) = .ok i

/-- R50, R54, R57: an instruction decoded from a request is sent with the request's code and operand bytes; `DATA_2` of a
decoder request is the ignored field. -/
def Obligations.EncodeOfDecodeKeepsUsedFields : Prop :=
  ∀ (req : RequestWord) (i : Instr), decodeRequest req = .ok i →
    ∃ req' : RequestWord, encode i = .request req' ∧ opselOf req' = opselOf req ∧ data1Of req' = data1Of req ∧
      ((opselOf req).toNat ≤ 0x09 → data2Of req' = data2Of req)

/-- R54, R55: the operation map, code by code; a request is an instruction exactly when its code is one of 0x00..0x09,
0x10..0x13. -/
def Obligations.RequestDefinedByOpselAlone : Prop :=
  ∀ req : RequestWord,
    (∀ i, decodeRequest req = .ok i ↔
      (opselOf req, i) ∈ [((0x00 : Byte), Instr.xvolt (data1Of req) (data2Of req)),
        (0x01, .rvolt (data1Of req) (data2Of req)), (0x02, .xtemp (data1Of req) (data2Of req)),
        (0x03, .xcurr (data1Of req) (data2Of req)), (0x04, .xiavg (data1Of req) (data2Of req)),
        (0x05, .xacr (data1Of req) (data2Of req)), (0x06, .xacrl (data1Of req) (data2Of req)),
        (0x07, .xab (data1Of req) (data2Of req)), (0x08, .xacap (data1Of req) (data2Of req)),
        (0x09, .xvsns (data1Of req) (data2Of req)), (0x10, .dstat (data1Of req)), (0x11, .dctrl (data1Of req)),
        (0x12, .dsfr (data1Of req)), (0x13, .deep (data1Of req))]) ∧
    ((∃ i, decodeRequest req = .ok i) ↔
      (opselOf req).toNat ≤ 0x09 ∨ 0x10 ≤ (opselOf req).toNat ∧ (opselOf req).toNat ≤ 0x13)

/-- R58: the accepted command bytes and what each is. -/
def Obligations.CommandBytesAreTheSix : Prop :=
  ∀ (b : Byte) (i : Instr), decodeCommand b = .ok i ↔
    (b, i) ∈ [((0x42 : Byte), Instr.copy0), (0x44, .copy1), (0xB2, .recall0), (0xB4, .recall1), (0x63, .lock0), (0x66, .lock1)]

/-- spec/95_test_vectors.md S5a, S6a, S8a, S9a, S10: sample words. -/
def Obligations.SampleWordsDecode : Prop :=
  decodeTableWord 24 0x005678 = some (.xvolt 0x56 0x78) ∧ decodeTableWord 24 0x030064 = some (.xcurr 0x00 0x64) ∧
    decodeTableWord 24 0x080064 = some (.xacap 0x00 0x64) ∧ decodeTableWord 24 0x100100 = some (.dstat 0x01) ∧
    decodeTableWord 24 0x1383AA = some (.deep 0x83) ∧ decodeTableWord 24 0x0A0064 = none ∧
    decodeTableWord 8 0x44 = some .copy1 ∧ decodeTableWord 8 0xB2 = some .recall0 ∧ decodeTableWord 8 0x43 = none

/-! Requests and operands -/

/-- R55, R111: a reserved code is refused: `VALID = 0`, and nothing else changes. -/
def Obligations.ReservedRequestAnsweredInvalid : Prop :=
  ∀ (s : State) (req : RequestWord),
    0x0A ≤ (opselOf req).toNat ∧ (opselOf req).toNat ≤ 0x0F ∨ 0x14 ≤ (opselOf req).toNat →
    decodeRequest req = .error (.reservedOpsel (opselOf req)) ∧
      perform (.request req) s = .next { s with rsp := some .invalid }

/-- R57: `REQ[7:0]` of a format-B request is ignored: of a decoder's, and of a conversion's whose `FMT[q].width` is 8
(for a quantity other than AB that reading of R50, R53 and R59 is the model's, DEDUCED, log entry 15); and no operand bit of a
defined operation is required to have a value. -/
def Obligations.IgnoredOperandByteHasNoEffect : Prop :=
  ∀ (s : State) (d x y : Byte),
    (∀ o : Byte, (∃ i, decodeRequest (requestWord o 0 0) = .ok i) → ∃ i, decodeRequest (requestWord o d x) = .ok i) ∧
    (∀ o ∈ [(0x10 : Byte), 0x11, 0x12, 0x13],
      perform (.request (requestWord o d x)) s = perform (.request (requestWord o d y)) s) ∧
    (∀ oq ∈ [((0x02 : Byte), Quantity.temp), (0x03, .curr), (0x04, .iavg), (0x05, .acr), (0x06, .acrl), (0x07, .ab),
        (0x08, .acap), (0x09, .vsns)],
      (s.params.format oq.2).width = .w8 →
      perform (.request (requestWord oq.1 d x)) s = perform (.request (requestWord oq.1 d y)) s)

/-- R51: the word operand is the two bytes, the first the most significant, and the low 16 bits of the request. -/
def Obligations.WordOperandIsBigEndian : Prop :=
  (∀ d1 d2 : Byte, (raw16 d1 d2).toNat = d1.toNat * 256 + d2.toNat) ∧
    (∀ req : RequestWord, raw16 (data1Of req) (data2Of req) = req.extractLsb' 0 16) ∧ raw16 0x56 0x78 = 0x5678

/-- R53 (and R52 for the byte): the integer of an operand by its quantity's width and sign, and its range. The two's
complement code is the spec's decision D11 (log entry 16). -/
def Obligations.OperandIntegerByFormat : Prop :=
  ∀ d1 d2 : Byte,
    (rawValue ⟨.w16, true⟩ d1 d2 = (raw16 d1 d2).toInt ∧ -32768 ≤ rawValue ⟨.w16, true⟩ d1 d2 ∧
      rawValue ⟨.w16, true⟩ d1 d2 ≤ 32767) ∧
    (rawValue ⟨.w16, false⟩ d1 d2 = (raw16 d1 d2).toNat ∧ rawValue ⟨.w16, false⟩ d1 d2 ≤ 65535) ∧
    (rawValue ⟨.w8, true⟩ d1 d2 = d1.toInt ∧ -128 ≤ rawValue ⟨.w8, true⟩ d1 d2 ∧ rawValue ⟨.w8, true⟩ d1 d2 ≤ 127) ∧
    (rawValue ⟨.w8, false⟩ d1 d2 = d1.toNat ∧ rawValue ⟨.w8, false⟩ d1 d2 ≤ 255)

/-! Arithmetic -/

/-- R66, the `exact` domain: rationals, with exact operations, and a quotient by every nonzero divisor. -/
def Obligations.ExactArithmeticIsRational : Prop :=
  (∀ (raw : Int) (k : Rat), NumVal.scale .exact raw k = .exact (raw * k)) ∧ (∀ a : Rat, (NumVal.exact a).neg = .exact (-a)) ∧
    ∀ a r : Rat, r ≠ 0 → (NumVal.exact a).quotient? (.exact r) = some (.exact (a / r))

/-- R66, the floating domains: a magnitude is rounded to the nearest the format holds, and of two that are as near the even
one. `datum` is what a pattern stands for. -/
def Obligations.RoundingIsToNearestTiesToEven : Prop :=
  ∀ f : FloatFormat, f = binary32 ∨ f = binary64 → ∀ q m m' : Rat, ∀ y : Nat, 0 ≤ q →
    f.datum (f.roundMagnitude q) = .fin false m → f.datum y = .fin false m' →
    |m - q| ≤ |m' - q| ∧ (m' ≠ m → |m - q| = |m' - q| → f.roundMagnitude q % 2 = 0)

/-- R66, the floating domains: a magnitude becomes infinite exactly from half a unit past the largest finite one:
2^128 - 2^103 in binary32, 2^1024 - 2^970 in binary64. -/
def Obligations.RoundingOverflowsPastLargestFinite : Prop :=
  (∀ q : Rat, 0 ≤ q → (binary32.datum (binary32.roundMagnitude q) = .inf false ↔ 2 ^ 128 - 2 ^ 103 ≤ q)) ∧
    ∀ q : Rat, 0 ≤ q → (binary64.datum (binary64.roundMagnitude q) = .inf false ↔ 2 ^ 1024 - 2 ^ 970 ≤ q)

/-- R67: in binary32 and binary64 every voltage is exact; so in every format the value stands for raw * 5/32768. -/
def Obligations.VoltageTransferExactInEveryFormat : Prop :=
  ∀ (fmt : NumFormat) (w : Word16), (NumVal.scale fmt w.toInt (5 / 32768)).value? = some ((w.toInt : Rat) * (5 / 32768))

/-- R77: every conversion is odd in every format, as patterns for x ≠ 0, division by `RSNS` included; the factor is finite in
the format, and where it is rounded to zero the Int is one `num` represents exactly (R66, R81; the formats: log entry 14). The
voltage transfer needs neither premise, and its value at 0 stands for 0. Every conversion is additive in exact arithmetic. -/
def Obligations.TransfersAreOddAndAdditive : Prop :=
  (∀ (fmt : NumFormat) (x : Int), x ≠ 0 → NumVal.scale fmt (-x) (5 / 32768) = (NumVal.scale fmt x (5 / 32768)).neg) ∧
    (∀ fmt : NumFormat, (NumVal.scale fmt 0 (5 / 32768)).value? = some 0) ∧
    (∀ (s : State) (q : Quantity) (x : Int) (k : Rat), x ≠ 0 →
      (NumVal.ofRat s.params.numFormat (s.params.factor q)).value? = some k → k ≠ 0 ∨ x.natAbs ≤ 65535 →
      convert? s q (-x) = (convert? s q x).map NumVal.neg) ∧
    ∀ (s : State) (q : Quantity) (x y : Int), s.params.numFormat = .exact → NumVal.admissible .exact s.rsns = true →
      ∃ a b : Rat, convert? s q x = some (.exact a) ∧ convert? s q y = some (.exact b) ∧
        convert? s q (x + y) = some (.exact (a + b))

/-- R68: the negation of a value stands for the negated number, whatever the format. -/
def Obligations.NegationNegatesTheNumber : Prop :=
  ∀ v : NumVal, v.neg.value? = v.value?.map fun x => -x

/-- R78: dividing the transfer for R = 1 by R gives the transfer for R, as computed values of every format. -/
def Obligations.CurrentInverselyProportionalToSense : Prop :=
  ∀ (fmt : NumFormat) (raw : Int) (k : Rat) (r : NumVal),
    ((NumVal.scale fmt raw k).quotient? (NumVal.ofRat fmt 1)).bind (fun t => t.quotient? r) = (NumVal.scale fmt raw k).quotient? r

/-- R81: with an admitted sense resistance and a finite factor no conversion gives a NaN. -/
def Obligations.ConversionsGiveNoNaN : Prop :=
  ∀ (s : State) (q : Quantity) (d1 d2 : Byte) (v : NumVal),
    NumVal.admissible s.params.numFormat s.rsns = true →
    (NumVal.ofRat s.params.numFormat (s.params.factor q)).value?.isSome = true →
    convert? s q (operandOf s q d1 d2) = some v → NotNaN v

/-! The conversion operations -/

/-- R67: XVOLT answers the signed word times 5/32768 volts, and writes no state. -/
def Obligations.VoltageTransferResult : Prop :=
  ∀ (s : State) (d1 d2 : Byte),
    exec (.xvolt d1 d2) s =
      .next { s with rsp := some (.num (NumVal.scale s.params.numFormat (raw16 d1 d2).toInt (5 / 32768))) }

/-- R68: RVOLT answers the negated voltage transfer. -/
def Obligations.VoltageReadingResult : Prop :=
  ∀ (s : State) (d1 d2 : Byte),
    exec (.rvolt d1 d2) s =
      .next { s with rsp := some (.num (NumVal.scale s.params.numFormat (raw16 d1 d2).toInt (5 / 32768)).neg) }

/-- R69, R75, R76: XTEMP, XACAP and XVSNS answer the operand, read per `FMT[q]`, times their factor, never divided. -/
def Obligations.UndividedConversionResults : Prop :=
  ∀ (s : State) (d1 d2 : Byte),
    exec (.xtemp d1 d2) s = .next { s with rsp := some (.num
        (NumVal.scale s.params.numFormat (rawValue s.params.tempFormat d1 d2) s.params.temperatureFactor)) } ∧
      exec (.xacap d1 d2) s = .next { s with rsp := some (.num
        (NumVal.scale s.params.numFormat (rawValue s.params.acapFormat d1 d2) (8 / 5))) } ∧
      exec (.xvsns d1 d2) s = .next { s with rsp := some (.num
        (NumVal.scale s.params.numFormat (rawValue s.params.vsnsFormat d1 d2) (1 / 640))) }

/-- R70 to R74: XCURR, XIAVG, XACR, XACRL and XAB answer the operand, read per `FMT[q]`, times their factor, divided by
`RSNS`, in every format and for every admitted `RSNS`. -/
def Obligations.CurrentFamilyResults : Prop :=
  ∀ (s : State) (d1 d2 : Byte), NumVal.admissible s.params.numFormat s.rsns = true →
    ∀ x ∈ [(Instr.xcurr d1 d2, s.params.currFormat, (1 / 640 : Rat)),
        (.xiavg d1 d2, s.params.iavgFormat, 1 / 640),
        (.xacr d1 d2, s.params.acrFormat, s.params.accumulatedCurrentFactor),
        (.xacrl d1 d2, s.params.acrlFormat, s.params.accumulatedCurrentLowFactor),
        (.xab d1 d2, s.params.abFormat, s.params.accumulationBiasFactor)],
      ∃ v, (NumVal.scale s.params.numFormat (rawValue x.2.1 d1 d2) x.2.2).quotient? s.rsns = some v ∧
        exec x.1 s = .next { s with rsp := some (.num v) }

/-- R70 to R74 in exact arithmetic: the rational (raw * factor) / RSNS. -/
def Obligations.CurrentFamilyExactValues : Prop :=
  ∀ (s : State) (d1 d2 : Byte) (r : Rat), s.params.numFormat = .exact → s.rsns = .exact r → r ≠ 0 →
    ∀ x ∈ [(Instr.xcurr d1 d2, s.params.currFormat, (1 / 640 : Rat)),
        (.xiavg d1 d2, s.params.iavgFormat, 1 / 640),
        (.xacr d1 d2, s.params.acrFormat, s.params.accumulatedCurrentFactor),
        (.xacrl d1 d2, s.params.acrlFormat, s.params.accumulatedCurrentLowFactor),
        (.xab d1 d2, s.params.abFormat, s.params.accumulationBiasFactor)],
      exec x.1 s = .next { s with rsp := some (.num (.exact ((rawValue x.2.1 d1 d2 : Rat) * x.2.2 / r))) }

/-- R120: in a state that holds no admitted sense resistance, which no constructed block is in, the current family stops by
name and nothing is divided (log entry 13). -/
def Obligations.CurrentFamilyNeverDividesByUnadmittedSense : Prop :=
  ∀ (s : State) (d1 d2 : Byte), NumVal.admissible s.params.numFormat s.rsns = false →
    ∀ i ∈ [Instr.xcurr d1 d2, .xiavg d1 d2, .xacr d1 d2, .xacrl d1 d2, .xab d1 d2],
      exec i s = .refused .senseResistorNotAdmitted

/-- R76: where current and sense voltage read their words alike, XCURR answers what XVSNS answers divided by `RSNS`. -/
def Obligations.CurrentIsSenseVoltageOverResistance : Prop :=
  ∀ (s : State) (d1 d2 : Byte), NumVal.admissible s.params.numFormat s.rsns = true →
    s.params.currFormat = s.params.vsnsFormat →
    ∃ t v, exec (.xvsns d1 d2) s = .next { s with rsp := some (.num t) } ∧
      exec (.xcurr d1 d2) s = .next { s with rsp := some (.num v) } ∧ t.quotient? s.rsns = some v

/-- R79: XVOLT, RVOLT, XTEMP, XACAP and XVSNS never read `RSNS`. -/
def Obligations.UndividedConversionsIgnoreSense : Prop :=
  ∀ (s : State) (r m : NumVal) (d1 d2 : Byte),
    ∀ i ∈ [Instr.xvolt d1 d2, .rvolt d1 d2, .xtemp d1 d2, .xacap d1 d2, .xvsns d1 d2],
      ∃ x, exec i s = .next { s with rsp := some x } ∧
        exec i { s with rsns := r, rsnsMho := m } = .next { s with rsns := r, rsnsMho := m, rsp := some x }

/-! The decoders -/

/-- R90, R92 to R95: each decoder answers the structured view of its byte under its register's table, and writes no state. -/
def Obligations.DecoderViews : Prop :=
  ∀ (s : State) (b : Byte),
    ∀ x ∈ [(Instr.dstat b, s.params.statusFields), (.dctrl b, s.params.controlFields), (.dsfr b, s.params.sfrFields),
        (.deep b, s.params.eepromFields)],
      ∃ v, exec x.1 s = .next { s with rsp := some (.flags v) } ∧ IsViewOf x.2 b v

/-- R92: the six named flags of the Status Register: CHGTF is bit 0, UVF bit 6, the others where `STATUS_POS` puts them. -/
def Obligations.StatusFlagPositions : Prop :=
  ∀ (s : State) (b : Byte), ∃ v, exec (.dstat b) s = .next { s with rsp := some (.flags v) } ∧
    v.flag? .chgtf = some (b.getLsbD 0) ∧ v.flag? .uvf = some (b.getLsbD 6) ∧
    v.flag? .aef = some (b.getLsbD s.params.statusPos.aef) ∧ v.flag? .sef = some (b.getLsbD s.params.statusPos.sef) ∧
    v.flag? .learnf = some (b.getLsbD s.params.statusPos.learnf) ∧ v.flag? .porf = some (b.getLsbD s.params.statusPos.porf)

/-- R92, the source's own test (S6): 0x01 decodes to CHGTF alone and 0x40 to UVF alone, for every admitted `STATUS_POS`. -/
def Obligations.StatusSourceExamples : Prop :=
  ∀ s : State, s.params.statusPos.wellFormed = true →
    (∃ v, exec (.dstat 0x01) s = .next { s with rsp := some (.flags v) } ∧ v.flag? .chgtf = some true ∧
      ∀ n ∈ [FlagName.aef, .sef, .learnf, .uvf, .porf], v.flag? n = some false) ∧
    (∃ v, exec (.dstat 0x40) s = .next { s with rsp := some (.flags v) } ∧ v.flag? .uvf = some true ∧
      ∀ n ∈ [FlagName.chgtf, .aef, .sef, .learnf, .porf], v.flag? n = some false)

/-- R91: no named flag depends on a reserved bit: bytes that agree at every named position have the same named flags; and a
reserved bit appears with the value it has in the byte. -/
def Obligations.ReservedBitsLeaveNamedFlags : Prop :=
  ∀ (table : FieldTable) (b b' : Byte), (∀ f ∈ table, b.getLsbD f.2 = b'.getLsbD f.2) →
    (structuredView table b).named = (structuredView table b').named ∧
      ∀ i : Fin 8, (structuredView table b).bits.bit i = b.getLsbD i

/-- R96: the view loses nothing. -/
def Obligations.PackAndUnpackAreInverse : Prop :=
  (∀ b : Byte, packBits (unpackByte b) = b) ∧ ∀ v : FlagBits, unpackByte (packBits v) = v

/-- R97: the four decoders give the same eight bits for the same byte. -/
def Obligations.DecodersShareTheirBits : Prop :=
  ∀ (s : State) (b : Byte), ∃ n1 n2 n3 n4 bits,
    exec (.dstat b) s = .next { s with rsp := some (.flags ⟨bits, n1⟩) } ∧
      exec (.dctrl b) s = .next { s with rsp := some (.flags ⟨bits, n2⟩) } ∧
      exec (.dsfr b) s = .next { s with rsp := some (.flags ⟨bits, n3⟩) } ∧
      exec (.deep b) s = .next { s with rsp := some (.flags ⟨bits, n4⟩) }

/-! The function commands -/

/-- R100 to R103, R58: each command is one transaction that carries its byte to register 0xFE. That the chip's registers
are unknown from then on is how the model says "any value" (R131, log entry 12). -/
def Obligations.FunctionCommandsTransmitTheirByte : Prop :=
  ∀ s : State,
    exec .copy0 s = .next (commandSent 0x42 s) ∧ exec .copy1 s = .next (commandSent 0x44 s) ∧
      exec .recall0 s = .next (commandSent 0xB2 s) ∧ exec .recall1 s = .next (commandSent 0xB4 s) ∧
      exec .lock0 s = .next (commandSent 0x63 s) ∧ exec .lock1 s = .next (commandSent 0x66 s)

/-- R101 to R103: COPY(N), RECALL(N), LOCK(N) for every N. -/
def Obligations.BlockCommandsByIndex : Prop :=
  ∀ (s : State) (n : Int),
    perform (.copyBlock n) s = .next (if n = 0 then commandSent 0x42 s else if n = 1 then commandSent 0x44 s else { s with ret := none }) ∧
      perform (.recallBlock n) s = .next (if n = 0 then commandSent 0xB2 s else if n = 1 then commandSent 0xB4 s else { s with ret := none }) ∧
      perform (.lockBlock n) s = .next (if n = 0 then commandSent 0x63 s else if n = 1 then commandSent 0x66 s else { s with ret := none })

/-- R104: an index other than 0 and 1 performs no bus transaction and is no error. -/
def Obligations.InvalidBlockIndexIsSilent : Prop :=
  ∀ (s : State) (n : Int), n ≠ 0 → n ≠ 1 → ∀ c ∈ [HostCall.copyBlock n, .recallBlock n, .lockBlock n],
    ∃ t, perform c s = .next t ∧ t.bus = s.bus ∧ t.mem = s.mem ∧
      t.chipUnsettled = s.chipUnsettled ∧ t.rsp = s.rsp ∧ t.sameConfig s

/-- R58, R100, R106: a byte written to 0xFE is the command it encodes, and any other byte is outside the model, by name;
reading 0xFE, or any address whose registers are all write-only, is refused; and so is writing an address whose registers are
all read-only (log entry 18, the model's choice). -/
def Obligations.ByteWrittenToCommandRegister : Prop :=
  ∀ (s : State) (a b : Byte),
    ((∀ i, decodeCommand b = .ok i → perform (.writeByte 0xFE b) s = exec i s) ∧
      ((∀ i, decodeCommand b ≠ .ok i) → perform (.writeByte 0xFE b) s = .refused (.unknownCommand b))) ∧
    (0xFE ∉ s.params.reserved → perform (.readByte 0xFE) s = .refused (.readOfWriteOnly 0xFE)) ∧
    (a ∉ s.params.reserved → (∃ e ∈ s.params.regmap.entries, e.covers a.toNat = true) →
      ((∀ e ∈ s.params.regmap.entries, e.covers a.toNat = true → e.access = .w) →
        perform (.readByte a) s = .refused (.readOfWriteOnly a.toNat)) ∧
      (a ≠ 0xFE → (∀ e ∈ s.params.regmap.entries, e.covers a.toNat = true → e.access = .r) →
        perform (.writeByte a b) s = .refused (.writeOfReadOnly a.toNat)))

/-! The transaction protocol -/

/-- R39, R43: a word write at any address but 0xFF whose two bytes are not refused sends the address and then the most
significant byte first, and returns nothing. Below 0xFD it leaves every other byte of the register space as it was (log entry
10); at 0xFD and 0xFE one of its bytes is a function command, after which nothing is known of the chip (log entries 12, 18). -/
def Obligations.WordWriteSendsHighByteFirst : Prop :=
  ∀ (s : State) (a : Byte) (v : Word16), a ≠ 0xFF → landingRefusal? s.params a.toNat (v.extractLsb' 8 8) = none →
    landingRefusal? s.params (a.toNat + 1) (v.extractLsb' 0 8) = none →
    ∃ t, perform (.writeWord a v) s = .next t ∧
      t = { s with
        mem := t.mem
        chipUnsettled := t.chipUnsettled
        ret := none
        bus := s.bus ++ [[.start, .addrW s.deviceAddr, .regAddr a, .data (v.extractLsb' 8 8), .data (v.extractLsb' 0 8), .stop]] } ∧
      (a.toNat < 0xFD → t.chipUnsettled = s.chipUnsettled ∧
        ∀ b, b ≠ a.toNat → b ≠ a.toNat + 1 → Memory.get? t.mem b = Memory.get? s.mem b) ∧
      (a = 0xFD ∨ a = 0xFE → t.chipUnsettled = true ∧ t.mem = [])

/-- R38: a byte write sends the address and then the byte, and leaves every other byte of the register space as it was (log
entry 10); a write of a read-only register is refused instead (log entry 18). -/
def Obligations.ByteWriteSendsItsByte : Prop :=
  ∀ (s : State) (a v : Byte), a ≠ 0xFE → writeRefusal? s.params a.toNat = none →
    ∃ t, perform (.writeByte a v) s = .next t ∧
      t = { s with
        mem := t.mem
        ret := none
        bus := s.bus ++ [[.start, .addrW s.deviceAddr, .regAddr a, .data v, .stop]] } ∧
      ∀ b, b ≠ a.toNat → Memory.get? t.mem b = Memory.get? s.mem b

/-- R37: a word read returns the two bytes it received, the first the most significant, and writes nothing: that a read
changes no register is the model's (log entries 9 and 10). -/
def Obligations.WordReadIsBigEndian : Prop :=
  ∀ (s : State) (a : Byte), a ≠ 0xFF → readRefusal? s.params a.toNat = none → readRefusal? s.params (a.toNat + 1) = none →
    ∃ d1 d2 n, perform (.readWord a) s = .next { s with
      ret := some (.word (raw16 d1 d2))
      draws := n
      bus := s.bus ++ [[.start, .addrW s.deviceAddr, .regAddr a, .phaseEnd s.params.phaseEnd, .start, .addrR s.deviceAddr,
        .data d1, .data d2, .stop]] }

/-- R36: a byte read returns the byte it received, and writes nothing: that a read changes no register is the model's (log
entries 9 and 10). -/
def Obligations.ByteReadReturnsItsByte : Prop :=
  ∀ (s : State) (a : Byte), readRefusal? s.params a.toNat = none →
    ∃ d n, perform (.readByte a) s = .next { s with
      ret := some (.byte d)
      draws := n
      bus := s.bus ++ [[.start, .addrW s.deviceAddr, .regAddr a, .phaseEnd s.params.phaseEnd, .start, .addrR s.deviceAddr,
        .data d, .stop]] }

/-- R42: a word, or a byte, written to a read/write register and read back is exactly what was written, the chip changing
nothing between (log entries 10 and 11) and no function command having been sent. After a function command nothing written is
known to stay (R131, log entry 12): the chip's next free bytes are read. -/
def Obligations.WrittenWordReadsBack : Prop :=
  ∀ (s : State) (a : Byte) (v : Word16) (x : Byte),
    (isReserved s.params a.toNat = false ∧ chipAccess s.params a.toNat .rw = true →
      ∃ t u, perform (.writeByte a x) s = .next t ∧ perform (.readByte a) t = .next u ∧
        (s.chipUnsettled = false → u.ret = some (.byte x)) ∧
        (s.chipUnsettled = true → s.mem = [] → u.ret = some (.byte (Config.chipByte s.draws)))) ∧
    (a ≠ 0xFF → (∀ b, b = a.toNat ∨ b = a.toNat + 1 → isReserved s.params b = false ∧ chipAccess s.params b .rw = true) →
      ∃ t u, perform (.writeWord a v) s = .next t ∧ perform (.readWord a) t = .next u ∧
        (s.chipUnsettled = false → u.ret = some (.word v)) ∧
        (s.chipUnsettled = true → s.mem = [] →
          u.ret = some (.word (raw16 (Config.chipByte s.draws) (Config.chipByte (s.draws + 1))))))

/-- R44 (log entry 9): a byte nothing is known of is read as the chip's next free byte, whatever that is; the read leaves the
register space as it was (log entry 10). -/
def Obligations.UnknownByteIsFree : Prop :=
  ∀ (s : State) (a : Byte), readRefusal? s.params a.toNat = none → Memory.get? s.mem a.toNat = none →
    ∃ t, perform (.readByte a) s = .next t ∧ t.ret = some (.byte (Config.chipByte s.draws)) ∧ t.draws = s.draws + 1 ∧
      t.mem = s.mem

/-- R43: a word access at 0xFF is refused, read or written; nothing else is refused for where a word starts. A word write that
lands a byte at 0xFE is refused where that byte is none of the six commands (R106, U1). -/
def Obligations.WordAccessAtEndOfSpace : Prop :=
  ∀ (s : State) (a : Byte) (v : Word16),
    (perform (.readWord a) s = .refused .wordPastEnd ↔ a = 0xFF) ∧
      (perform (.writeWord a v) s = .refused .wordPastEnd ↔ a = 0xFF) ∧
      ((∀ i, decodeCommand (v.extractLsb' 8 8) ≠ .ok i) →
        perform (.writeWord 0xFE v) s = .refused (.unknownCommand (v.extractLsb' 8 8))) ∧
      (writeRefusal? s.params 0xFD = none → (∀ i, decodeCommand (v.extractLsb' 0 8) ≠ .ok i) →
        perform (.writeWord 0xFD v) s = .refused (.unknownCommand (v.extractLsb' 0 8))) ∧
      ∀ b, perform (.writeWord a v) s = .refused (.unknownCommand b) →
        (a = 0xFE ∧ b = v.extractLsb' 8 8 ∨ a = 0xFD ∧ b = v.extractLsb' 0 8) ∧ ∀ i, decodeCommand b ≠ .ok i

/-- R32: no access to a reserved address is performed, alone or as either byte of a word. (0xFE, the function-command
register, is never reserved: R35.) -/
def Obligations.ReservedAddressIsRefused : Prop :=
  ∀ (s : State) (a v : Byte) (w : Word16), a ∈ s.params.reserved → a ≠ 0xFE →
    perform (.readByte a) s = .refused (.reservedAddress a.toNat) ∧
      perform (.writeByte a v) s = .refused (.reservedAddress a.toNat) ∧
      ∀ c ∈ [HostCall.readWord a, .writeWord a w, .readWord (a - 1), .writeWord (a - 1) w], ∀ t, perform c s ≠ .next t

/-- R41: every protocol call is exactly one bus transaction. -/
def Obligations.ProtocolCallIsOneTransaction : Prop :=
  ∀ (s t : State) (a b : Byte) (v : Word16), ∀ c ∈ [HostCall.readByte a, .readWord a, .writeByte a b, .writeWord a v],
    perform c s = .next t → ∃ f, t.bus = s.bus ++ [f]

/-- R61, R46, R68: an accessor reads its register once, by a word or a byte as its quantity's width is, and then makes its
request with the bytes read; the voltage accessor's answer is written out. A register read or written by its name, whole or at
an offset (log entry 17), is the protocol call at its address, in the access mode the register has (R31, log entry 18). The
sense-voltage accessor reads the current register (log entry 23). With admitted parameters (log entry 26) every accessor R46
lists answers, and factory gain is read-only. -/
def Obligations.AccessorsReadOneRegister : Prop :=
  ∀ s : State,
    (∀ e : RegEntry, s.params.regmap.entry .voltage = e → e.access ≠ .w → e.addr ≠ 0xFF →
      readRefusal? s.params e.addr.toNat = none → readRefusal? s.params (e.addr.toNat + 1) = none →
      ∃ (w : Word16) (n : Nat), perform (.reading .voltage) s = .next { s with
        ret := some (.word w)
        draws := n
        bus := s.bus ++ [readFrame s e.addr [highByte w, lowByte w]]
        rsp := some (.num (NumVal.scale s.params.numFormat w.toInt (5 / 32768)).neg) }) ∧
    (∀ x ∈ [(Reading.voltage, RegName.voltage, Quantity.volt, Instr.rvolt), (.current, .current, .curr, .xcurr),
        (.temperature, .temperature, .temp, .xtemp), (.senseVoltage, .current, .vsns, .xvsns),
        (.activeAbsoluteCapacity, .activeAbsoluteCapacity, .acap, .xacap),
        (.standbyAbsoluteCapacity, .standbyAbsoluteCapacity, .acap, .xacap)],
      ∀ e : RegEntry, s.params.regmap.entry x.2.1 = e → e.access ≠ .w →
      ((s.params.format x.2.2.1).width = .w16 → ∀ t, perform (.readWord e.addr) s = .next t →
        ∃ d1 d2, t.ret = some (.word (raw16 d1 d2)) ∧ perform (.reading x.1) s = exec (x.2.2.2 d1 d2) t) ∧
      ((s.params.format x.2.2.1).width = .w8 → ∀ t, perform (.readByte e.addr) s = .next t →
        ∃ d1, t.ret = some (.byte d1) ∧ perform (.reading x.1) s = exec (x.2.2.2 d1 0) t)) ∧
    (∀ (name : RegName) (offset : Nat) (v : Word16) (e : RegEntry) (a : Byte), s.params.regmap.entry name = e →
      a = BitVec.ofNat 8 (e.addr.toNat + offset) →
      (offset + 1 ≤ e.width.bytes →
        (e.access ≠ .w → perform (.readRegisterAt name .w8 offset) s = perform (.readByte a) s) ∧
        (e.access ≠ .r → perform (.writeRegisterAt name .w8 offset v) s = perform (.writeByte a (v.extractLsb' 0 8)) s)) ∧
      (offset + 2 ≤ e.width.bytes →
        (e.access ≠ .w → perform (.readRegisterAt name .w16 offset) s = perform (.readWord a) s) ∧
        (e.access ≠ .r → perform (.writeRegisterAt name .w16 offset v) s = perform (.writeWord a v) s)) ∧
      (∀ width, (e.access = .w → perform (.readRegisterAt name width offset) s = .refused (.readOfWriteOnly e.addr.toNat)) ∧
        (e.access = .r → perform (.writeRegisterAt name width offset v) s = .refused (.writeOfReadOnly e.addr.toNat))) ∧
      ∀ width, (e.width = .b1 ∧ width = RawWidth.w8 ∨ e.width = .b2 ∧ width = RawWidth.w16) →
        perform (.readRegister name) s = perform (.readRegisterAt name width 0) s ∧
          perform (.writeRegister name v) s = perform (.writeRegisterAt name width 0 v) s) ∧
    (s.params.wellFormed = true →
      (NumVal.admissible s.params.numFormat s.rsns = true → ∀ r : Reading, ∃ t, perform (.reading r) s = .next t) ∧
      (∀ name ∈ [RegName.activeRelativeCapacity, .standbyRelativeCapacity, .chargeVoltage, .minimumChargeCurrent,
          .activeEmptyVoltage, .activeEmptyCurrent, .senseResistorPrime, .senseResistorGain, .factoryGain],
        ∃ t, perform (.readRegister name) s = .next t) ∧
      (∀ name ∈ [RegName.chargeVoltage, .minimumChargeCurrent, .activeEmptyVoltage, .activeEmptyCurrent, .senseResistorPrime,
          .senseResistorGain], ∀ v : Word16, ∃ t, perform (.writeRegister name v) s = .next t) ∧
      (∀ v : Word16, perform (.writeRegister .factoryGain v) s =
        .refused (.writeOfReadOnly (s.params.regmap.entry .factoryGain).addr.toNat)) ∧
      ∀ (offset : Nat) (v : Word16), offset + 2 ≤ (s.params.regmap.entry .userEeprom).width.bytes →
        (∃ t, perform (.readRegisterAt .userEeprom .w16 offset) s = .next t) ∧
          ∃ t, perform (.writeRegisterAt .userEeprom .w16 offset v) s = .next t)

/-! The machine -/

/-- R110, R56: with an admitted sense resistance every request is answered, a conversion with a number, a decoder with flags,
a reserved code with neither; and nothing else changes. -/
def Obligations.EveryRequestIsAnswered : Prop :=
  ∀ (s : State) (req : RequestWord), NumVal.admissible s.params.numFormat s.rsns = true →
    ∃ r, perform (.request req) s = .next { s with rsp := some r } ∧
      ((opselOf req).toNat ≤ 0x09 → ∃ v, r = .num v) ∧
      (0x10 ≤ (opselOf req).toNat → (opselOf req).toNat ≤ 0x13 → ∃ v, r = .flags v) ∧
      (0x0A ≤ (opselOf req).toNat → (opselOf req).toNat ≤ 0x0F → r = .invalid) ∧
      (0x14 ≤ (opselOf req).toNat → r = .invalid)

/-- R3: the response depends on nothing but the request and the configuration: in any two states of one configuration the
same request is answered alike, or stops alike (which only a state with no admitted sense resistance does, log entry 13). -/
def Obligations.ResponseDependsOnRequestAndConfiguration : Prop :=
  ∀ (req : RequestWord) (s t : State), s.sameConfig t →
    (∃ r, perform (.request req) s = .next { s with rsp := some r } ∧ perform (.request req) t = .next { t with rsp := some r }) ∨
      ∃ x, perform (.request req) s = .refused x ∧ perform (.request req) t = .refused x

/-- R47, R111: the response to a request is the same whether or not another request, a refused one among them, was made
before it. -/
def Obligations.RequestOrderDoesNotMatter : Prop :=
  ∀ (q1 q2 : RequestWord) (s s1 : State), perform (.request q1) s = .next s1 →
    ∀ r, (∃ t, perform (.request q2) s1 = .next t ∧ t.rsp = some r) ↔ ∃ t, perform (.request q2) s = .next t ∧ t.rsp = some r

/-- R5, R11: the configuration is never mutated: no step of any kind changes `RSNS`, `RSNS_MHO`, a table or the address. -/
def Obligations.StepKeepsConfiguration : Prop :=
  ∀ s t : State, step s = .next t → t.sameConfig s

/-- The invariant of a constructed instance is kept by every step. -/
def Obligations.StepKeepsInstanceInvariant : Prop :=
  ∀ s t : State, s.Inv → step s = .next t → t.Inv

/-- The state after reset meets the invariant. -/
def Obligations.ResetMeetsInstanceInvariant : Prop :=
  State.reset.Inv

/-- The register space stays in canonical form, the model's (log entry 9), in every state. -/
def Obligations.StepKeepsMemoryCanonical : Prop :=
  ∀ s t : State, Memory.wf s.mem → step s = .next t → Memory.wf t.mem

/-- R46: every host call performs at most one bus transaction, and none is ever undone. -/
def Obligations.StepMakesAtMostOneTransaction : Prop :=
  ∀ s t : State, step s = .next t → t.bus = s.bus ∨ ∃ f, t.bus = s.bus ++ [f]

/-- R12: in an exact instance the cached reciprocal times the resistance is 1. -/
def Obligations.CachedReciprocalTimesSenseIsOne : Prop :=
  ∀ s : State, s.Inv → s.params.numFormat = .exact → ∃ r m : Rat, s.rsns = .exact r ∧ s.rsnsMho = .exact m ∧ m * r = 1

/-- R125, R120: construction sets `RSNS` and its reciprocal and makes no transaction; with a resistance that is not admitted
it is refused, and with parameters that are not admitted too (log entry 26). -/
def Obligations.ConstructionSetsConfiguration : Prop :=
  ∀ (addr : BitVec 7) (rsns : NumVal) (p : Params),
    (p.wellFormed = true →
      (NumVal.admissible p.numFormat rsns = true →
        ∃ mho, (NumVal.ofRat p.numFormat 1).quotient? rsns = some mho ∧
          construct addr rsns p = .next {
            rsns := rsns
            rsnsMho := mho
            params := p
            deviceAddr := addr
            mem := []
            inputs := []
            rsp := none
            ret := none
            bus := []
            chipUnsettled := false
            draws := 0 }) ∧
      (NumVal.admissible p.numFormat rsns = false → construct addr rsns p = .refused .senseResistorNotAdmitted)) ∧
    (p.wellFormed = false → construct addr rsns p = .refused .parametersNotAdmitted)

/-- A constructed instance meets the invariant, and its response port is undriven (R25). -/
def Obligations.ConstructedInstanceMeetsInvariant : Prop :=
  ∀ (addr : BitVec 7) (rsns : NumVal) (p : Params) (s : State), construct addr rsns p = .next s → s.Inv ∧ s.rsp = none

/-- The reset state is the instance of the source's scenario (S9) with the default parameters (log entries 3, 4 and 28). -/
def Obligations.ResetIsTheScenarioInstance : Prop :=
  construct 0x34 (.exact (1 / 50)) Params.default = .next State.reset

/-- A step whose next call presents a word that decodes runs exactly that instruction; the call is then no longer pending. -/
def Obligations.StepRunsDecodedInstruction : Prop :=
  ∀ (s : State) (w : CodeWord) (rest : List HostCall) (i : Instr), s.inputs = callOf w :: rest → decode w = .ok i →
    step s = exec i { s with inputs := rest }

/-- The word placed by `withFetchWord` is the one the next step runs. -/
def Obligations.FetchWordIsRunNext : Prop :=
  ∀ (s : State) (nbits w : Nat) (i : Instr), decodeTableWord nbits w = some i → step (s.withFetchWord nbits w) = exec i s

/-- With no call pending nothing happens (log entry 1). -/
def Obligations.IdleStepChangesNothing : Prop :=
  ∀ s : State, s.inputs = [] → step s = .next s
end

