-- ==== Sys2Proof/Laws/Arith.lean ====
section
/-!
SUPPORT. The floating formats: what rounding a magnitude gives, and what the pattern it gives stands for.
-/
namespace Sys2Proof

theorem dyadic_eq (n : Nat) (k : Int) : dyadic n k = n * (2 : ℚ) ^ k := by
  unfold dyadic
  rw [Rat.mkRat_eq_div]
  rcases le_total 0 k with h | h
  · lift k to Nat using h
    simp
  · obtain ⟨j, rfl⟩ : ∃ j : Nat, k = -j := ⟨k.natAbs, by omega⟩
    simp [div_eq_mul_inv]

theorem dyadic_nonneg (n : Nat) (k : Int) : 0 ≤ dyadic n k := by
  rw [dyadic_eq]
  positivity

/-- How far `nearestEven a b` is from `a / b`, and that it is even at a tie. -/
theorem nearestEven_error {a b : Nat} (hb : 0 < b) :
    ∃ d : ℤ, (nearestEven a b : ℤ) * b - a = d ∧ 2 * |d| ≤ b ∧ (2 * |d| = b → nearestEven a b % 2 = 0) := by
  have hdm : b * (a / b) + a % b = a := Nat.div_add_mod a b
  have hr : a % b < b := Nat.mod_lt a hb
  have hdef : nearestEven a b = if 2 * (a % b) < b then a / b else if b < 2 * (a % b) then a / b + 1
    else if a / b % 2 = 0 then a / b else a / b + 1 := rfl
  rw [hdef]
  generalize a / b = n at *
  generalize a % b = r at *
  have hz : (b : ℤ) * n + r = a := by exact_mod_cast hdm
  have hdown : ((n : Nat) : ℤ) * b - a = -r := by linarith
  have hup : ((n + 1 : Nat) : ℤ) * b - a = b - r := by push_cast; linarith
  have hd : |(-r : ℤ)| = r := by rw [abs_neg, abs_of_nonneg (by omega)]
  have hu : |(b - r : ℤ)| = b - r := abs_of_nonneg (by omega)
  split_ifs
  · exact ⟨_, hdown, by omega, by omega⟩
  · exact ⟨_, hup, by omega, by omega⟩
  · exact ⟨_, hdown, by omega, by omega⟩
  · exact ⟨_, hup, by omega, by omega⟩

theorem nearestEven_half {a b : Nat} (hb : 0 < b) : 2 * |(nearestEven a b : ℤ) * b - a| ≤ b := by
  obtain ⟨d, h, hd, -⟩ := nearestEven_error (a := a) hb
  rwa [h]

/-- No integer is nearer to `a / b` than `nearestEven a b`. -/
theorem nearestEven_le {a b : Nat} (hb : 0 < b) (c : ℤ) :
    |(nearestEven a b : ℤ) * b - a| ≤ |c * b - a| := by
  by_cases h : c = nearestEven a b
  · rw [h]
  · have h1 := nearestEven_half (a := a) hb
    have h2 : (b : ℤ) ≤ |c * b - nearestEven a b * b| := by
      rw [← sub_mul, abs_mul, abs_of_nonneg (Int.natCast_nonneg b)]
      have : 1 ≤ |c - nearestEven a b| := Int.one_le_abs (sub_ne_zero.2 h)
      nlinarith
    have h3 := abs_sub_le (c * b) a (nearestEven a b * b : ℤ)
    have h4 := abs_sub_comm (a : ℤ) (nearestEven a b * b)
    omega

/-- Where another integer is as near, `nearestEven a b` is even. -/
theorem nearestEven_tie {a b : Nat} (hb : 0 < b) {c : ℤ} (h : c ≠ nearestEven a b)
    (ht : |(nearestEven a b : ℤ) * b - a| = |c * b - a|) : nearestEven a b % 2 = 0 := by
  have h1 := nearestEven_half (a := a) hb
  have h2 : (b : ℤ) ≤ |c * b - nearestEven a b * b| := by
    rw [← sub_mul, abs_mul, abs_of_nonneg (Int.natCast_nonneg b)]
    have : 1 ≤ |c - nearestEven a b| := Int.one_le_abs (sub_ne_zero.2 h)
    nlinarith
  have h3 := abs_sub_le (c * b) a (nearestEven a b * b : ℤ)
  have h4 := abs_sub_comm (a : ℤ) (nearestEven a b * b)
  have h5 : 2 * |(nearestEven a b : ℤ) * b - a| = b := by omega
  obtain ⟨d, h6, -, h7⟩ := nearestEven_error (a := a) hb
  exact h7 (h6 ▸ h5)

/-- `binaryExponent a b` is the exponent of the power of two at or below `a / b`. -/
theorem binaryExponent_spec {a b : Nat} (ha : 0 < a) (hb : 0 < b) :
    (2 : ℚ) ^ binaryExponent a b * b ≤ a ∧ (a : ℚ) < 2 ^ (binaryExponent a b + 1) * b := by
  have ha1 : (2 : ℚ) ^ (a.log2 : ℤ) ≤ a := by
    rw [zpow_natCast]; exact_mod_cast Nat.log2_self_le ha.ne'
  have ha2 : (a : ℚ) < 2 ^ ((a.log2 : ℤ) + 1) := by
    have := @Nat.lt_log2_self a
    rw [show (a.log2 : ℤ) + 1 = ((a.log2 + 1 : Nat) : ℤ) by push_cast; rfl, zpow_natCast]; exact_mod_cast this
  have hb1 : (2 : ℚ) ^ (b.log2 : ℤ) ≤ b := by
    rw [zpow_natCast]; exact_mod_cast Nat.log2_self_le hb.ne'
  have hb2 : (b : ℚ) < 2 ^ ((b.log2 : ℤ) + 1) := by
    have := @Nat.lt_log2_self b
    rw [show (b.log2 : ℤ) + 1 = ((b.log2 + 1 : Nat) : ℤ) by push_cast; rfl, zpow_natCast]; exact_mod_cast this
  have two : (2 : ℚ) ≠ 0 := by norm_num
  have key : ∀ e : ℤ, (b * 2 ^ e.toNat ≤ a * 2 ^ (-e).toNat) ↔ (2 : ℚ) ^ e * b ≤ a := by
    intro e
    rcases le_total 0 e with h | h
    · lift e to Nat using h
      simp only [Int.toNat_natCast, zpow_natCast, show (-(e : ℤ)).toNat = 0 by omega, pow_zero, mul_one]
      rw [← Nat.cast_le (α := ℚ)]
      push_cast
      rw [mul_comm]
    · obtain ⟨j, rfl⟩ : ∃ j : Nat, e = -j := ⟨e.natAbs, by omega⟩
      simp only [neg_neg, Int.toNat_natCast, zpow_neg, zpow_natCast, show (-(j : ℤ)).toNat = 0 by omega, pow_zero, mul_one]
      rw [← Nat.cast_le (α := ℚ), inv_mul_le_iff₀ (by positivity)]
      push_cast
      rw [mul_comm]
  set e : ℤ := (a.log2 : ℤ) - b.log2 with he
  have hlow : (2 : ℚ) ^ (e - 1) * b ≤ a := by
    have : (2 : ℚ) ^ (e - 1) * 2 ^ ((b.log2 : ℤ) + 1) = 2 ^ (a.log2 : ℤ) := by
      rw [← zpow_add₀ two]; congr 1; omega
    have hp : (0 : ℚ) < 2 ^ (e - 1) := by positivity
    nlinarith
  have hhigh : (a : ℚ) < 2 ^ (e + 1) * b := by
    have : (2 : ℚ) ^ (e + 1) * 2 ^ (b.log2 : ℤ) = 2 ^ ((a.log2 : ℤ) + 1) := by
      rw [← zpow_add₀ two]; congr 1; omega
    have hp : (0 : ℚ) < 2 ^ (e + 1) := by positivity
    nlinarith
  have hdef : binaryExponent a b = if b * 2 ^ e.toNat ≤ a * 2 ^ (-e).toNat then e else e - 1 := rfl
  rw [hdef]
  split
  · exact ⟨(key e).1 ‹_›, hhigh⟩
  · rename_i h
    rw [key, not_le] at h
    exact ⟨hlow, by rwa [sub_add_cancel]⟩

/-- A number of units of the last place `2 ^ (e - fracBits)`: what a magnitude is rounded to. -/
def FloatFormat.ulps (f : FloatFormat) (e : Int) (n : Nat) : ℚ := n * (2 : ℚ) ^ (e - f.fracBits)

/-- What `roundMagnitude` does with a positive magnitude: it picks the exponent of the magnitude, at least the smallest,
and the nearest number of units of the last place, the even one at a tie. -/
theorem FloatFormat.roundMagnitude_spec (f : FloatFormat) {q : ℚ} (hq : 0 < q) :
    ∃ (e : Int) (n : Nat), f.minExp ≤ e ∧ n ≤ 2 ^ (f.fracBits + 1) ∧
      (e = f.minExp ∨ 2 ^ f.fracBits ≤ n ∧ (2 : ℚ) ^ e ≤ q) ∧ (q < 2 ^ (e + 1)) ∧
      (∀ c : ℤ, |f.ulps e n - q| ≤ |c * (2 : ℚ) ^ (e - f.fracBits) - q|) ∧
      (∀ c : ℤ, c ≠ n → |f.ulps e n - q| = |c * (2 : ℚ) ^ (e - f.fracBits) - q| → n % 2 = 0) ∧
      f.roundMagnitude q = min ((e - f.minExp).toNat * 2 ^ f.fracBits + n) (f.expOnes * 2 ^ f.fracBits) := by
  have hnum : 0 < q.num := Rat.num_pos.2 hq
  have ha : 0 < q.num.natAbs := by omega
  have hb : 0 < q.den := q.den_pos
  have hqab : (q.num.natAbs : ℚ) = q * q.den := by
    rw [Rat.mul_den_eq_num, ← Int.cast_natCast, Int.natCast_natAbs, abs_of_pos hnum]
  obtain ⟨hlo, hhi⟩ := binaryExponent_spec ha hb
  have hbq : (0 : ℚ) < q.den := by exact_mod_cast hb
  rw [hqab] at hlo hhi
  have hlo := le_of_mul_le_mul_right hlo hbq
  have hhi := lt_of_mul_lt_mul_right hhi hbq.le
  set x := binaryExponent q.num.natAbs q.den with hx
  set e := max x f.minExp with he
  set k := e - f.fracBits with hk
  set A := q.num.natAbs * 2 ^ (-k).toNat with hA
  set B := q.den * 2 ^ k.toNat with hB
  have two : (2 : ℚ) ≠ 0 := by norm_num
  have hBpos : 0 < B := by positivity
  have hBq : (0 : ℚ) < B := by exact_mod_cast hBpos
  have hpk : (0 : ℚ) < 2 ^ k := by positivity
  -- the quotient of the two naturals is the magnitude in units of the last place
  have hAB : (A : ℚ) * 2 ^ k = q * B := by
    rw [hA, hB]
    push_cast
    rw [hqab]
    rcases le_total 0 k with h | h
    · obtain ⟨j, hj⟩ : ∃ j : Nat, k = j := ⟨k.toNat, by omega⟩
      simp only [hj, Int.toNat_natCast, zpow_natCast, show (-(j : ℤ)).toNat = 0 by omega, pow_zero, mul_one]
      ring
    · obtain ⟨j, hj⟩ : ∃ j : Nat, k = -j := ⟨k.natAbs, by omega⟩
      rw [hj]
      simp only [neg_neg, Int.toNat_natCast, zpow_neg, zpow_natCast, show (-(j : ℤ)).toNat = 0 by omega, pow_zero, mul_one]
      field_simp
  have hdist : ∀ c : ℤ, |(c : ℚ) * 2 ^ k - q| * B = |((c * B - A : ℤ) : ℚ)| * 2 ^ k := by
    intro c
    have h1 : |(c : ℚ) * 2 ^ k - q| * B = |((c : ℚ) * 2 ^ k - q) * B| := by rw [abs_mul, abs_of_pos hBq]
    have h2 : |((c * B - A : ℤ) : ℚ)| * 2 ^ k = |((c * B - A : ℤ) : ℚ) * 2 ^ k| := by rw [abs_mul, abs_of_pos hpk]
    rw [h1, h2]
    congr 1
    push_cast
    linear_combination hAB
  have hxe : x ≤ e := le_max_left _ _
  have hupper : q < 2 ^ (e + 1) := hhi.trans_le (zpow_le_zpow_right₀ (by norm_num) (by omega))
  have hAlt : A < 2 ^ (f.fracBits + 1) * B := by
    have h1 : (2 : ℚ) ^ (e + 1) = 2 ^ (f.fracBits + 1) * 2 ^ k := by
      rw [← zpow_natCast, ← zpow_add₀ two]; congr 1; push_cast; omega
    rw [h1] at hupper
    have h2 : (A : ℚ) * 2 ^ k < 2 ^ (f.fracBits + 1) * B * 2 ^ k := by rw [hAB]; nlinarith
    exact_mod_cast lt_of_mul_lt_mul_right h2 hpk.le
  refine ⟨e, nearestEven A B, le_max_right _ _, ?_, ?_, hupper, fun c => ?_, fun c hc ht => ?_, ?_⟩
  · have h1 := nearestEven_half (a := A) hBpos
    by_contra hcon
    have hcon : 2 ^ (f.fracBits + 1) + 1 ≤ nearestEven A B := by omega
    have h2 : ((2 ^ (f.fracBits + 1) + 1 : Nat) : ℤ) * B ≤ (nearestEven A B : ℤ) * B := by
      exact_mod_cast Nat.mul_le_mul_right B hcon
    have h3 := (abs_le.1 (show |(nearestEven A B : ℤ) * B - A| ≤ B by omega)).2
    have h4 : (A : ℤ) < ((2 ^ (f.fracBits + 1) : Nat) : ℤ) * B := by exact_mod_cast hAlt
    push_cast at h1 h2 h4
    have h5 : 2 * ((nearestEven A B : ℤ) * B - A) ≤ B := by
      rcases abs_cases ((nearestEven A B : ℤ) * B - A) with h | h <;> omega
    nlinarith
  · by_cases hm : e = f.minExp
    · exact .inl hm
    · have hex : e = x := by omega
      have hle : (2 : ℚ) ^ e ≤ q := by rw [hex]; exact hlo
      refine .inr ⟨?_, hle⟩
      have h1 : (2 : ℚ) ^ e = 2 ^ f.fracBits * 2 ^ k := by
        rw [← zpow_natCast, ← zpow_add₀ two]; congr 1; omega
      rw [h1] at hle
      have h2 : (2 : ℚ) ^ f.fracBits * B * 2 ^ k ≤ A * 2 ^ k := by rw [hAB]; nlinarith
      have h3 : 2 ^ f.fracBits * B ≤ A := by exact_mod_cast le_of_mul_le_mul_right h2 hpk
      by_contra hcon
      have hcon : nearestEven A B + 1 ≤ 2 ^ f.fracBits := by omega
      have h4 := nearestEven_half (a := A) hBpos
      have h5 : ((nearestEven A B : ℤ) + 1) * B ≤ A := by
        exact_mod_cast (Nat.mul_le_mul_right B hcon).trans h3
      have h6 : 2 * (A - (nearestEven A B : ℤ) * B) ≤ B := by
        rcases abs_cases ((nearestEven A B : ℤ) * B - A) with h | h <;> omega
      nlinarith
  · have h1 := nearestEven_le (a := A) hBpos c
    have h2 := hdist (nearestEven A B)
    have h3 := hdist c
    rw [FloatFormat.ulps]
    refine le_of_mul_le_mul_right ?_ hBq
    rw [Int.cast_natCast] at h2
    rw [h2, h3]
    exact mul_le_mul_of_nonneg_right (by exact_mod_cast h1) hpk.le
  · refine nearestEven_tie hBpos hc ?_
    have h2 := hdist (nearestEven A B)
    have h3 := hdist c
    rw [Int.cast_natCast] at h2
    rw [FloatFormat.ulps] at ht
    rw [ht, h3] at h2
    exact_mod_cast (mul_right_cancel₀ hpk.ne' h2).symm
  · unfold FloatFormat.roundMagnitude
    simp only [ha.ne', if_false]
    rfl

@[simp] theorem FloatFormat.roundMagnitude_zero (f : FloatFormat) : f.roundMagnitude 0 = 0 := by
  simp [FloatFormat.roundMagnitude]

theorem FloatFormat.roundMagnitude_le (f : FloatFormat) (q : ℚ) : f.roundMagnitude q ≤ f.expOnes * 2 ^ f.fracBits := by
  unfold FloatFormat.roundMagnitude
  simp only
  split
  · exact Nat.zero_le _
  · exact min_le_right _ _

/-- A pattern less its sign, with the sign put back, stands for the same magnitude under that sign. -/
theorem FloatFormat.datum_signBit (f : FloatFormat) (neg : Bool) {p : Nat} (hp : p < 2 ^ (f.expBits + f.fracBits)) :
    f.datum (f.signBit neg + p) =
      (let frac := p % 2 ^ f.fracBits
       let e := p / 2 ^ f.fracBits
       if e = f.expOnes then (if frac = 0 then .inf neg else .nan)
       else if e = 0 then .fin neg (dyadic frac (f.minExp - f.fracBits))
       else .fin neg (dyadic (2 ^ f.fracBits + frac) (f.minExp - f.fracBits + (e - 1 : Nat)))) := by
  have hpow : 2 ^ (f.expBits + f.fracBits) = 2 ^ f.expBits * 2 ^ f.fracBits := pow_add _ _ _
  have hF : 0 < 2 ^ f.fracBits := by positivity
  have hE : 0 < 2 ^ f.expBits := by positivity
  have hdiv : p / 2 ^ f.fracBits < 2 ^ f.expBits := (Nat.div_lt_iff_lt_mul hF).2 (hpow ▸ hp)
  have hfrac : (f.signBit neg + p) % 2 ^ f.fracBits = p % 2 ^ f.fracBits := by
    cases neg <;> simp [FloatFormat.signBit, hpow]
  have hexp : (f.signBit neg + p) / 2 ^ f.fracBits % 2 ^ f.expBits = p / 2 ^ f.fracBits := by
    cases neg
    · simp [FloatFormat.signBit, Nat.mod_eq_of_lt hdiv]
    · simp only [FloatFormat.signBit, if_true, hpow, Nat.add_comm (2 ^ f.expBits * 2 ^ f.fracBits),
        Nat.add_mul_div_right _ _ hF, Nat.add_mod_right, Nat.mod_eq_of_lt hdiv]
  have hneg : decide ((f.signBit neg + p) / 2 ^ (f.expBits + f.fracBits) % 2 = 1) = neg := by
    cases neg
    · simp [FloatFormat.signBit, Nat.div_eq_of_lt hp]
    · simp [FloatFormat.signBit, Nat.add_div_left _ (show 0 < 2 ^ (f.expBits + f.fracBits) by positivity),
        Nat.div_eq_of_lt hp]
  unfold FloatFormat.datum
  simp only [hfrac, hexp, hneg]

/-- The pattern `roundMagnitude` builds from an exponent and a number of units stands for that many units, unless it is past
the largest finite magnitude; then it is an infinity. -/
theorem FloatFormat.datum_ulps (f : FloatFormat) (hE : 0 < f.expBits) (neg : Bool) {e : Int} {n : Nat} (he : f.minExp ≤ e)
    (hn : n ≤ 2 ^ (f.fracBits + 1)) (hne : e = f.minExp ∨ 2 ^ f.fracBits ≤ n) :
    f.datum (f.signBit neg + min ((e - f.minExp).toNat * 2 ^ f.fracBits + n) (f.expOnes * 2 ^ f.fracBits)) =
      if (e - f.minExp).toNat * 2 ^ f.fracBits + n < f.expOnes * 2 ^ f.fracBits then .fin neg (f.ulps e n)
      else .inf neg := by
  have hF : 0 < 2 ^ f.fracBits := by positivity
  have h2E : 2 ≤ 2 ^ f.expBits := by
    calc 2 = 2 ^ 1 := rfl
      _ ≤ 2 ^ f.expBits := Nat.pow_le_pow_right (by norm_num) hE
  have hones : f.expOnes * 2 ^ f.fracBits < 2 ^ (f.expBits + f.fracBits) := by
    rw [pow_add]
    exact Nat.mul_lt_mul_of_pos_right (by unfold FloatFormat.expOnes; omega) hF
  rw [FloatFormat.datum_signBit f neg (lt_of_le_of_lt (min_le_right _ _) hones)]
  split
  · rename_i hlt
    rw [min_eq_left hlt.le]
    set d := (e - f.minExp).toNat with hd
    have hde : (d : ℤ) = e - f.minExp := by omega
    have hlt' : (d * 2 ^ f.fracBits + n) / 2 ^ f.fracBits ≠ f.expOnes :=
      ((Nat.div_lt_iff_lt_mul hF).2 hlt).ne
    simp only [hlt', if_false]
    have hdiv : (d * 2 ^ f.fracBits + n) / 2 ^ f.fracBits = d + n / 2 ^ f.fracBits := by
      rw [Nat.add_comm, Nat.add_mul_div_right _ _ hF, Nat.add_comm]
    have hmod : (d * 2 ^ f.fracBits + n) % 2 ^ f.fracBits = n % 2 ^ f.fracBits := by
      rw [Nat.add_comm, Nat.add_mul_mod_self_right]
    rw [hdiv, hmod]
    have two : (2 : ℚ) ≠ 0 := by norm_num
    rcases lt_or_ge n (2 ^ f.fracBits) with hlow | hhigh
    · have hem : e = f.minExp := hne.resolve_right (by omega)
      have hd0 : d = 0 := by omega
      rw [Nat.div_eq_of_lt hlow, Nat.mod_eq_of_lt hlow, hd0]
      simp [dyadic_eq, FloatFormat.ulps, hem]
    · have hne0 : d + n / 2 ^ f.fracBits ≠ 0 := by
        have : 1 ≤ n / 2 ^ f.fracBits := (Nat.le_div_iff_mul_le hF).2 (by omega)
        omega
      rw [if_neg hne0]
      congr 1
      rw [dyadic_eq, FloatFormat.ulps]
      rcases Nat.lt_or_eq_of_le hn with hn | hn
      · have h1 : n / 2 ^ f.fracBits = 1 := Nat.div_eq_of_lt_le (by omega) (by rw [pow_succ] at hn; omega)
        have h2 := Nat.div_add_mod n (2 ^ f.fracBits)
        rw [h1] at h2 ⊢
        rw [show 2 ^ f.fracBits + n % 2 ^ f.fracBits = n by omega]
        congr 2
        omega
      · have h1 : n / 2 ^ f.fracBits = 2 := by
          rw [hn, pow_succ, Nat.mul_div_cancel_left _ hF]
        have h2 : n % 2 ^ f.fracBits = 0 := by rw [hn, pow_succ, Nat.mul_mod_right]
        rw [h1, h2, hn]
        push_cast
        rw [add_zero, ← zpow_natCast, ← zpow_natCast, ← zpow_add₀ two, ← zpow_add₀ two]
        congr 1
        push_cast
        omega
  · rename_i hge
    rw [min_eq_right (by omega), Nat.mul_div_cancel _ hF, if_pos rfl, Nat.mul_mod_left, if_pos rfl]

/-- A finite pattern is a number of units of some last place, fewer than an infinity's: a subnormal one of the smallest, or
a normal one with its leading bit. -/
theorem FloatFormat.datum_fin (f : FloatFormat) {x : Nat} {s : Bool} {m : ℚ} (h : f.datum x = .fin s m) :
    ∃ (e : Int) (n : Nat), f.minExp ≤ e ∧ n < 2 ^ (f.fracBits + 1) ∧ (e = f.minExp ∨ 2 ^ f.fracBits ≤ n) ∧ m = f.ulps e n ∧
      x % 2 ^ (f.expBits + f.fracBits) = (e - f.minExp).toNat * 2 ^ f.fracBits + n ∧
      s = decide (x / 2 ^ (f.expBits + f.fracBits) % 2 = 1) := by
  have hF : 0 < 2 ^ f.fracBits := by positivity
  have hmod : x % 2 ^ f.fracBits < 2 ^ f.fracBits := Nat.mod_lt _ hF
  have hx : x % 2 ^ (f.expBits + f.fracBits) =
      x / 2 ^ f.fracBits % 2 ^ f.expBits * 2 ^ f.fracBits + x % 2 ^ f.fracBits := by
    rw [add_comm f.expBits, pow_add, Nat.mod_mul]
    ring
  unfold FloatFormat.datum at h
  simp only at h
  split at h
  · split at h <;> cases h
  · split at h
    · rename_i h0
      cases h
      refine ⟨f.minExp, x % 2 ^ f.fracBits, le_rfl, by rw [pow_succ]; omega, .inl rfl, by rw [dyadic_eq, FloatFormat.ulps], ?_, rfl⟩
      rw [hx, h0]
      simp
    · rename_i h0
      cases h
      refine ⟨f.minExp + (x / 2 ^ f.fracBits % 2 ^ f.expBits - 1 : Nat), 2 ^ f.fracBits + x % 2 ^ f.fracBits,
        by omega, by rw [pow_succ]; omega, .inr (by omega), ?_, ?_, rfl⟩
      · rw [dyadic_eq, FloatFormat.ulps]
        congr 2
        omega
      · rw [hx, show (f.minExp + (x / 2 ^ f.fracBits % 2 ^ f.expBits - 1 : Nat) - f.minExp).toNat =
          x / 2 ^ f.fracBits % 2 ^ f.expBits - 1 by omega, ← Nat.add_assoc]
        congr 1
        rw [← Nat.succ_mul, Nat.succ_eq_add_one, Nat.sub_add_cancel (by omega)]

/-- Each magnitude has one exponent and number of units of its last place. -/
theorem FloatFormat.ulps_inj (f : FloatFormat) {e e' : Int} {n n' : Nat} (hm : f.minExp ≤ e) (hm' : f.minExp ≤ e')
    (hn : n < 2 ^ (f.fracBits + 1)) (hn' : n' < 2 ^ (f.fracBits + 1)) (hc : e = f.minExp ∨ 2 ^ f.fracBits ≤ n)
    (hc' : e' = f.minExp ∨ 2 ^ f.fracBits ≤ n') (h : f.ulps e n = f.ulps e' n') : e = e' ∧ n = n' := by
  have main : ∀ {e e' : Int} {n n' : Nat}, f.minExp ≤ e → n < 2 ^ (f.fracBits + 1) →
      (e' = f.minExp ∨ 2 ^ f.fracBits ≤ n') → f.ulps e n = f.ulps e' n' → ¬ e < e' := by
    intro e e' n n' hm hn hc' h hlt
    have h2 : 2 ^ f.fracBits ≤ n' := hc'.resolve_left (by omega)
    obtain ⟨j, hj⟩ : ∃ j : Nat, e' = e + 1 + j := ⟨(e' - e - 1).toNat, by omega⟩
    have hp : (0 : ℚ) < 2 ^ (e - f.fracBits) := by positivity
    have h3 : (2 : ℚ) ^ (e' - f.fracBits) = 2 ^ (j + 1) * 2 ^ (e - f.fracBits) := by
      rw [← zpow_natCast, ← zpow_add₀ (by norm_num)]; congr 1; push_cast; omega
    rw [FloatFormat.ulps, FloatFormat.ulps, h3, ← mul_assoc] at h
    have h4 : n = n' * 2 ^ (j + 1) := by exact_mod_cast mul_right_cancel₀ hp.ne' h
    have h5 : 2 ^ f.fracBits * 2 ^ 1 ≤ n' * 2 ^ (j + 1) :=
      Nat.mul_le_mul h2 (Nat.pow_le_pow_right (by norm_num) (by omega))
    rw [pow_succ] at hn
    omega
  have he : e = e' := le_antisymm (not_lt.1 (main hm' hn' hc h.symm)) (not_lt.1 (main hm hn hc' h))
  refine ⟨he, ?_⟩
  rw [FloatFormat.ulps, FloatFormat.ulps, he] at h
  have hp : (2 : ℚ) ^ (e' - f.fracBits) ≠ 0 := by positivity
  exact_mod_cast mul_right_cancel₀ hp h

theorem FloatFormat.ulps_pos_iff (f : FloatFormat) (e : Int) (n : Nat) : 0 < f.ulps e n ↔ 0 < n := by
  have hp : (0 : ℚ) < 2 ^ (e - f.fracBits) := by positivity
  rw [FloatFormat.ulps, mul_pos_iff_of_pos_right hp, Nat.cast_pos]

/-- A magnitude the format holds is rounded to itself. -/
theorem FloatFormat.roundMagnitude_ulps (f : FloatFormat) {e : Int} {n : Nat} (hm : f.minExp ≤ e)
    (hn : n < 2 ^ (f.fracBits + 1)) (hc : e = f.minExp ∨ 2 ^ f.fracBits ≤ n) :
    f.roundMagnitude (f.ulps e n) = min ((e - f.minExp).toNat * 2 ^ f.fracBits + n) (f.expOnes * 2 ^ f.fracBits) := by
  rcases Nat.eq_zero_or_pos n with rfl | hpos
  · obtain rfl : e = f.minExp := hc.resolve_right (by simp)
    simp [FloatFormat.ulps]
  · obtain ⟨e', n', hm', hn', hc', hlt, hnear, -, hround⟩ :=
      f.roundMagnitude_spec ((f.ulps_pos_iff e n).2 hpos)
    rw [hround]
    have two : (2 : ℚ) ≠ 0 := by norm_num
    -- the magnitude is a whole number of units of the place chosen for it
    have hee : e' ≤ e := by
      rcases hc' with h | ⟨-, h⟩
      · omega
      · by_contra hcon
        have h1 : (n : ℚ) < 2 ^ (f.fracBits + 1) := by exact_mod_cast hn
        have h2 : f.ulps e n < 2 ^ (e + 1) := by
          have h3 : (2 : ℚ) ^ (e + 1) = 2 ^ (f.fracBits + 1) * 2 ^ (e - f.fracBits) := by
            rw [← zpow_natCast, ← zpow_add₀ two]; congr 1; push_cast; omega
          rw [FloatFormat.ulps, h3]
          exact mul_lt_mul_of_pos_right h1 (by positivity)
        have h4 : (2 : ℚ) ^ (e + 1) ≤ 2 ^ e' := zpow_le_zpow_right₀ (by norm_num) (by omega)
        linarith
    obtain ⟨j, hj⟩ : ∃ j : Nat, e = e' + j := ⟨(e - e').toNat, by omega⟩
    have hint : ((n * 2 ^ j : ℤ) : ℚ) * 2 ^ (e' - f.fracBits) = f.ulps e n := by
      rw [FloatFormat.ulps]
      push_cast
      rw [mul_assoc, ← zpow_natCast, ← zpow_add₀ two]
      congr 2
      omega
    have heq : f.ulps e' n' = f.ulps e n := by
      have := hnear (n * 2 ^ j)
      rw [hint, sub_self, abs_zero] at this
      exact sub_eq_zero.1 (abs_eq_zero.1 (le_antisymm this (abs_nonneg _)))
    have hn'' : n' < 2 ^ (f.fracBits + 1) := by
      have h3 : (2 : ℚ) ^ (e' + 1) = 2 ^ (f.fracBits + 1) * 2 ^ (e' - f.fracBits) := by
        rw [← zpow_natCast, ← zpow_add₀ two]; congr 1; push_cast; omega
      rw [← heq, h3, FloatFormat.ulps] at hlt
      exact_mod_cast lt_of_mul_lt_mul_right hlt (by positivity)
    obtain ⟨rfl, rfl⟩ := f.ulps_inj hm' hm hn'' hn (hc'.imp id And.left) hc heq
    rfl

/-- Rounding a finite pattern's magnitude gives the pattern back, less its sign. -/
theorem FloatFormat.roundMagnitude_datum (f : FloatFormat) {x : Nat} {s : Bool} {m : ℚ} (h : f.datum x = .fin s m) :
    f.roundMagnitude m = x % 2 ^ (f.expBits + f.fracBits) := by
  have hF : 0 < 2 ^ f.fracBits := by positivity
  obtain ⟨e, n, hm, hn, hc, rfl, hx, -⟩ := f.datum_fin h
  rw [f.roundMagnitude_ulps hm hn hc, hx, min_eq_left]
  by_contra hcon
  have hE : x / 2 ^ f.fracBits % 2 ^ f.expBits ≥ f.expOnes := by
    rw [← Nat.mod_mul_right_div_self, mul_comm, ← pow_add, add_comm f.fracBits, mul_comm] at *
    rw [hx]
    exact (Nat.le_div_iff_mul_le hF).2 (by omega)
  have hE' : x / 2 ^ f.fracBits % 2 ^ f.expBits < 2 ^ f.expBits := Nat.mod_lt _ (by positivity)
  have : x / 2 ^ f.fracBits % 2 ^ f.expBits = f.expOnes := by
    unfold FloatFormat.expOnes at *
    omega
  unfold FloatFormat.datum at h
  simp only [this, if_true] at h
  split at h <;> cases h

/-- A finite pattern is its sign bit and its rounded magnitude: encoding what it stands for gives it back. -/
theorem FloatFormat.encode_datum (f : FloatFormat) {x : Nat} (hx : x < 2 ^ (1 + (f.expBits + f.fracBits))) {s : Bool} {m : ℚ}
    (h : f.datum x = .fin s m) : f.encode (.fin s m) = x := by
  obtain ⟨-, -, -, -, -, -, -, hs⟩ := f.datum_fin h
  rw [FloatFormat.encode, f.roundMagnitude_datum h]
  have hP : 0 < 2 ^ (f.expBits + f.fracBits) := by positivity
  have hdm := Nat.div_add_mod x (2 ^ (f.expBits + f.fracBits))
  have hlt : x / 2 ^ (f.expBits + f.fracBits) < 2 := (Nat.div_lt_iff_lt_mul hP).2 (by rwa [pow_add, pow_one] at hx)
  rw [Nat.mod_eq_of_lt hlt] at hs
  rcases Nat.lt_or_ge 0 (x / 2 ^ (f.expBits + f.fracBits)) with h1 | h1
  · have h2 : x / 2 ^ (f.expBits + f.fracBits) = 1 := by omega
    rw [h2] at hs hdm
    subst hs
    simp only [FloatFormat.signBit]
    simpa using hdm
  · have h2 : x / 2 ^ (f.expBits + f.fracBits) = 0 := Nat.le_zero.1 h1
    rw [h2] at hs hdm
    subst hs
    simp only [FloatFormat.signBit]
    simpa using hdm

/-- A magnitude the format holds, short of an infinity, is encoded exactly. -/
theorem FloatFormat.datum_encode_ulps (f : FloatFormat) (hE : 0 < f.expBits) (neg : Bool) {e : Int} {n : Nat}
    (hm : f.minExp ≤ e) (hn : n < 2 ^ (f.fracBits + 1)) (hc : e = f.minExp ∨ 2 ^ f.fracBits ≤ n)
    (hfit : (e - f.minExp).toNat * 2 ^ f.fracBits + n < f.expOnes * 2 ^ f.fracBits) :
    f.datum (f.encode (.fin neg (f.ulps e n))) = .fin neg (f.ulps e n) := by
  rw [FloatFormat.encode, f.roundMagnitude_ulps hm hn hc, f.datum_ulps hE neg hm hn.le hc, if_pos hfit]

theorem FloatFormat.datum_encode_inf (f : FloatFormat) (hE : 0 < f.expBits) (neg : Bool) :
    f.datum (f.encode (.inf neg)) = .inf neg := by
  have h2E : 2 ≤ 2 ^ f.expBits := Nat.pow_le_pow_right (n := 2) (i := 1) (by norm_num) hE
  have hF : 0 < 2 ^ f.fracBits := by positivity
  rw [FloatFormat.encode, f.datum_signBit neg]
  · simp [Nat.mul_div_cancel _ hF]
  · rw [pow_add]
    exact Nat.mul_lt_mul_of_pos_right (by unfold FloatFormat.expOnes; omega) hF

/-- What the encoding of a finite datum stands for: a finite value under its sign, the nearest there is, or an infinity. -/
theorem FloatFormat.datum_encode_fin (f : FloatFormat) (hE : 0 < f.expBits) (neg : Bool) {q : ℚ} (hq : 0 ≤ q) :
    (∃ m, f.datum (f.encode (.fin neg q)) = .fin neg m ∧ 0 ≤ m) ∨ f.datum (f.encode (.fin neg q)) = .inf neg := by
  rcases hq.eq_or_lt with rfl | hq
  · refine .inl ⟨0, ?_, le_rfl⟩
    have h2E : 2 ≤ 2 ^ f.expBits := Nat.pow_le_pow_right (n := 2) (i := 1) (by norm_num) hE
    have := f.datum_encode_ulps hE neg (e := f.minExp) (n := 0) le_rfl (by positivity) (.inl rfl)
      (by
        have : 0 < f.expOnes := by unfold FloatFormat.expOnes; omega
        simpa using this)
    simpa [FloatFormat.ulps] using this
  · obtain ⟨e, n, hm, hn, hc, -, -, -, hround⟩ := f.roundMagnitude_spec hq
    rw [FloatFormat.encode, hround, f.datum_ulps hE neg hm hn (hc.imp id And.left)]
    split
    · exact .inl ⟨_, rfl, by unfold FloatFormat.ulps; positivity⟩
    · exact .inr rfl

/-- Every encoding fits the format's width, so that a `BitVec` of that width keeps all of it. -/
theorem FloatFormat.encode_lt (f : FloatFormat) (hE : 0 < f.expBits) (hF : 1 < f.fracBits) (d : Datum) :
    f.encode d < 2 ^ (1 + (f.expBits + f.fracBits)) := by
  have h2E : 2 ≤ 2 ^ f.expBits := Nat.pow_le_pow_right (n := 2) (i := 1) (by norm_num) hE
  have hP : 2 ^ (f.expBits + f.fracBits) = 2 ^ f.expBits * 2 ^ f.fracBits := pow_add _ _ _
  have h4F : 4 ≤ 2 ^ f.fracBits := Nat.pow_le_pow_right (n := 2) (i := 2) (by norm_num) hF
  have hones : f.expOnes * 2 ^ f.fracBits + 2 ^ f.fracBits = 2 ^ (f.expBits + f.fracBits) := by
    rw [hP, ← Nat.succ_mul]
    congr 1
    unfold FloatFormat.expOnes
    omega
  have hsign : ∀ neg, f.signBit neg ≤ 2 ^ (f.expBits + f.fracBits) := by
    intro neg
    cases neg <;> simp [FloatFormat.signBit]
  rw [pow_add, pow_one]
  cases d with
  | nan =>
    have h1 := hsign Config.nanSign
    have h2 : Config.nanPayload % (2 ^ f.fracBits - 1) < 2 ^ f.fracBits - 1 := Nat.mod_lt _ (by omega)
    simp only [FloatFormat.encode, FloatFormat.nan]
    omega
  | inf neg =>
    have h1 := hsign neg
    simp only [FloatFormat.encode]
    omega
  | fin neg m =>
    have h1 := hsign neg
    have h2 := f.roundMagnitude_le m
    simp only [FloatFormat.encode]
    omega

end Sys2Proof
end

