-- ==== Sys2Proof/Laws/State.lean ====
section
/-!
SUPPORT. What each update of the state leaves in each field, and what two updates of one kind come to.
-/
namespace Sys2Proof.Machine

variable (s : State)

@[simp] theorem State.respond_rsns (r : Response) : (s.respond r).rsns = s.rsns := rfl
@[simp] theorem State.respond_rsnsMho (r : Response) : (s.respond r).rsnsMho = s.rsnsMho := rfl
@[simp] theorem State.respond_params (r : Response) : (s.respond r).params = s.params := rfl
@[simp] theorem State.respond_deviceAddr (r : Response) : (s.respond r).deviceAddr = s.deviceAddr := rfl
@[simp] theorem State.respond_mem (r : Response) : (s.respond r).mem = s.mem := rfl
@[simp] theorem State.respond_inputs (r : Response) : (s.respond r).inputs = s.inputs := rfl
@[simp] theorem State.respond_rsp (r : Response) : (s.respond r).rsp = some r := rfl
@[simp] theorem State.respond_ret (r : Response) : (s.respond r).ret = s.ret := rfl
@[simp] theorem State.respond_bus (r : Response) : (s.respond r).bus = s.bus := rfl
@[simp] theorem State.respond_draws (r : Response) : (s.respond r).draws = s.draws := rfl
@[simp] theorem State.respond_chipUnsettled (r : Response) : (s.respond r).chipUnsettled = s.chipUnsettled := rfl

@[simp] theorem State.onBus_rsns (t : Transaction) : (s.onBus t).rsns = s.rsns := rfl
@[simp] theorem State.onBus_rsnsMho (t : Transaction) : (s.onBus t).rsnsMho = s.rsnsMho := rfl
@[simp] theorem State.onBus_params (t : Transaction) : (s.onBus t).params = s.params := rfl
@[simp] theorem State.onBus_deviceAddr (t : Transaction) : (s.onBus t).deviceAddr = s.deviceAddr := rfl
@[simp] theorem State.onBus_mem (t : Transaction) : (s.onBus t).mem = s.mem := rfl
@[simp] theorem State.onBus_inputs (t : Transaction) : (s.onBus t).inputs = s.inputs := rfl
@[simp] theorem State.onBus_rsp (t : Transaction) : (s.onBus t).rsp = s.rsp := rfl
@[simp] theorem State.onBus_ret (t : Transaction) : (s.onBus t).ret = s.ret := rfl
@[simp] theorem State.onBus_bus (t : Transaction) : (s.onBus t).bus = s.bus ++ [t] := rfl
@[simp] theorem State.onBus_draws (t : Transaction) : (s.onBus t).draws = s.draws := rfl
@[simp] theorem State.onBus_chipUnsettled (t : Transaction) : (s.onBus t).chipUnsettled = s.chipUnsettled := rfl

@[simp] theorem State.returning_rsns (v : Option RawValue) : (s.returning v).rsns = s.rsns := rfl
@[simp] theorem State.returning_rsnsMho (v : Option RawValue) : (s.returning v).rsnsMho = s.rsnsMho := rfl
@[simp] theorem State.returning_params (v : Option RawValue) : (s.returning v).params = s.params := rfl
@[simp] theorem State.returning_deviceAddr (v : Option RawValue) : (s.returning v).deviceAddr = s.deviceAddr := rfl
@[simp] theorem State.returning_mem (v : Option RawValue) : (s.returning v).mem = s.mem := rfl
@[simp] theorem State.returning_inputs (v : Option RawValue) : (s.returning v).inputs = s.inputs := rfl
@[simp] theorem State.returning_rsp (v : Option RawValue) : (s.returning v).rsp = s.rsp := rfl
@[simp] theorem State.returning_ret (v : Option RawValue) : (s.returning v).ret = v := rfl
@[simp] theorem State.returning_bus (v : Option RawValue) : (s.returning v).bus = s.bus := rfl
@[simp] theorem State.returning_draws (v : Option RawValue) : (s.returning v).draws = s.draws := rfl
@[simp] theorem State.returning_chipUnsettled (v : Option RawValue) : (s.returning v).chipUnsettled = s.chipUnsettled := rfl

@[simp] theorem State.disturbChip_rsns : (s.disturbChip).rsns = s.rsns := rfl
@[simp] theorem State.disturbChip_rsnsMho : (s.disturbChip).rsnsMho = s.rsnsMho := rfl
@[simp] theorem State.disturbChip_params : (s.disturbChip).params = s.params := rfl
@[simp] theorem State.disturbChip_deviceAddr : (s.disturbChip).deviceAddr = s.deviceAddr := rfl
@[simp] theorem State.disturbChip_mem : (s.disturbChip).mem = [] := rfl
@[simp] theorem State.disturbChip_inputs : (s.disturbChip).inputs = s.inputs := rfl
@[simp] theorem State.disturbChip_rsp : (s.disturbChip).rsp = s.rsp := rfl
@[simp] theorem State.disturbChip_ret : (s.disturbChip).ret = s.ret := rfl
@[simp] theorem State.disturbChip_bus : (s.disturbChip).bus = s.bus := rfl
@[simp] theorem State.disturbChip_draws : (s.disturbChip).draws = s.draws := rfl
@[simp] theorem State.disturbChip_chipUnsettled : (s.disturbChip).chipUnsettled = true := rfl

@[simp] theorem refuseRequest_rsns : (refuseRequest s).rsns = s.rsns := rfl
@[simp] theorem refuseRequest_rsnsMho : (refuseRequest s).rsnsMho = s.rsnsMho := rfl
@[simp] theorem refuseRequest_params : (refuseRequest s).params = s.params := rfl
@[simp] theorem refuseRequest_deviceAddr : (refuseRequest s).deviceAddr = s.deviceAddr := rfl
@[simp] theorem refuseRequest_mem : (refuseRequest s).mem = s.mem := rfl
@[simp] theorem refuseRequest_inputs : (refuseRequest s).inputs = s.inputs := rfl
@[simp] theorem refuseRequest_rsp : (refuseRequest s).rsp = some .invalid := rfl
@[simp] theorem refuseRequest_ret : (refuseRequest s).ret = s.ret := rfl
@[simp] theorem refuseRequest_bus : (refuseRequest s).bus = s.bus := rfl
@[simp] theorem refuseRequest_draws : (refuseRequest s).draws = s.draws := rfl
@[simp] theorem refuseRequest_chipUnsettled : (refuseRequest s).chipUnsettled = s.chipUnsettled := rfl

@[simp] theorem State.respond_respond (r r' : Response) : (s.respond r).respond r' = s.respond r' := rfl

@[simp] theorem State.returning_returning (v v' : Option RawValue) : (s.returning v).returning v' = s.returning v' := rfl

end Sys2Proof.Machine
end

