-- ==== Sys2Proof/Laws/Memory.lean ====
section
/-!
SUPPORT. The register space: reading after writing, and that every memory operation keeps the canonical form.
-/
namespace Sys2Proof.Machine

@[simp] theorem Memory.get?_nil (a : Nat) : Memory.get? [] a = none := rfl

theorem Memory.get?_set_same (m : Memory) (a : Nat) (b : Byte) : (Memory.set m a b).get? a = some b := by
  induction m with
  | nil => simp [Memory.set, Memory.get?]
  | cons c t ih =>
    unfold Memory.set
    split
    · simp [Memory.get?]
    · split
      · simp [Memory.get?]
      · rename_i h
        simp [Memory.get?, ih, Ne.symm h]

theorem Memory.get?_set_other (m : Memory) {a a' : Nat} (b : Byte) (h : a' ≠ a) :
    (Memory.set m a b).get? a' = Memory.get? m a' := by
  induction m with
  | nil => simp [Memory.set, Memory.get?, h.symm]
  | cons c t ih =>
    unfold Memory.set
    split
    · simp [Memory.get?, h.symm]
    · split
      · rename_i hc
        simp [Memory.get?, ← hc, h.symm]
      · simp [Memory.get?, ih]

theorem Memory.get?_forget_same (m : Memory) (a : Nat) : (Memory.forget m a).get? a = none := by
  induction m with
  | nil => rfl
  | cons c t ih =>
    unfold Memory.forget at *
    by_cases h : c.1 = a
    · simp [h, ih]
    · simp [Memory.get?, h, ih]

theorem Memory.get?_forget_other (m : Memory) {a a' : Nat} (h : a' ≠ a) :
    (Memory.forget m a).get? a' = Memory.get? m a' := by
  induction m with
  | nil => rfl
  | cons c t ih =>
    unfold Memory.forget at *
    by_cases hc : c.1 = a
    · simp [Memory.get?, hc, h.symm, ih]
    · simp [Memory.get?, hc, ih]

/-- Nothing but the cell set enters the list. -/
theorem Memory.mem_set {m : Memory} {a : Nat} {b : Byte} {c : Host.Cell} (h : c ∈ Memory.set m a b) :
    c = (a, b) ∨ c ∈ m := by
  induction m with
  | nil => simpa [Memory.set] using h
  | cons d t ih =>
    unfold Memory.set at h
    split at h
    · simpa using h
    · split at h
      · rcases List.mem_cons.1 h with rfl | h
        · exact .inl rfl
        · exact .inr (List.mem_cons_of_mem _ h)
      · rcases List.mem_cons.1 h with rfl | h
        · exact .inr List.mem_cons_self
        · exact (ih h).imp id (List.mem_cons_of_mem _)

theorem Memory.set_wf {m : Memory} {a : Nat} {b : Byte} (hm : Memory.wf m) (ha : a < 256) :
    Memory.wf (Memory.set m a b) := by
  refine ⟨?_, fun c hc => ?_⟩
  · induction m with
    | nil => simp [Memory.set]
    | cons d t ih =>
      obtain ⟨hp, hb⟩ := hm
      rw [List.map_cons, List.pairwise_cons] at hp
      have ht : Memory.wf t := ⟨hp.2, fun c hc => hb c (List.mem_cons_of_mem _ hc)⟩
      unfold Memory.set
      split
      · rename_i hlt
        simp only [List.map_cons, List.pairwise_cons, List.mem_cons]
        exact ⟨fun x hx => hx.elim (fun h => h ▸ hlt) fun h => hlt.trans (hp.1 x h), hp⟩
      · split
        · rename_i heq
          simp only [List.map_cons, List.pairwise_cons]
          exact ⟨heq ▸ hp.1, hp.2⟩
        · rename_i hge hne
          simp only [List.map_cons, List.pairwise_cons]
          refine ⟨fun x hx => ?_, ih ht⟩
          obtain ⟨c, hc, rfl⟩ := List.mem_map.1 hx
          rcases Memory.mem_set hc with rfl | hc
          · show d.1 < a
            omega
          · exact hp.1 c.1 (List.mem_map_of_mem hc)
  · rcases Memory.mem_set hc with rfl | hc
    · exact ha
    · exact hm.2 c hc

theorem Memory.forget_wf {m : Memory} (a : Nat) (hm : Memory.wf m) : Memory.wf (Memory.forget m a) :=
  ⟨hm.1.sublist (List.filter_sublist.map _), fun c hc => hm.2 c (List.mem_filter.1 hc).1⟩

theorem Memory.mem_forget {m : Memory} {a : Nat} {c : Host.Cell} (h : c ∈ Memory.forget m a) : c ∈ m :=
  (List.mem_filter.1 h).1

/-- A held byte is what the chip answers, and nothing changes. -/
theorem fetchByte_held {s : State} {a : Nat} {b : Byte} (h : s.mem.get? a = some b) : fetchByte a s = (b, s) := by
  simp [fetchByte, h]

/-- A byte that is not held is the next free one. -/
theorem fetchByte_free {s : State} {a : Nat} (h : s.mem.get? a = none) :
    fetchByte a s = (Config.chipByte s.draws, { s with draws := s.draws + 1 }) := by
  simp [fetchByte, unlistedByte, h]

/-- Everything a byte fetch can do to the state: it may count a draw. -/
theorem fetchByte_state (a : Nat) (s : State) :
    (fetchByte a s).2 = s ∨ (fetchByte a s).2 = { s with draws := s.draws + 1 } := by
  unfold fetchByte
  split
  · exact .inl rfl
  · exact .inr rfl

/-- Everything a byte store can do: the address becomes known, in an R/W register of a chip no command acts on, or unknown. -/
theorem storeByte_cases (a : Nat) (b : Byte) (s : State) :
    (chipAccess s.params a .rw = true ∧ s.chipUnsettled = false ∧ storeByte a b s = { s with mem := s.mem.set a b }) ∨
      ((chipAccess s.params a .rw = false ∨ s.chipUnsettled = true) ∧ storeByte a b s = { s with mem := s.mem.forget a }) := by
  cases h : chipAccess s.params a .rw <;> cases hu : s.chipUnsettled <;> simp [storeByte, h, hu]

/-- A byte store changes the memory alone. -/
theorem storeByte_eq (a : Nat) (b : Byte) (s : State) :
    storeByte a b s = { s with mem := (storeByte a b s).mem } := by
  rcases storeByte_cases a b s with ⟨-, -, h⟩ | ⟨-, h⟩ <;> rw [h]

theorem storeByte_wf {a : Nat} {b : Byte} {s : State} (ha : a < 256) (hm : Memory.wf s.mem) :
    Memory.wf (storeByte a b s).mem := by
  rcases storeByte_cases a b s with ⟨-, -, h⟩ | ⟨-, h⟩ <;> rw [h]
  · exact Memory.set_wf hm ha
  · exact Memory.forget_wf a hm

/-- A byte store changes what is held at no other address. -/
theorem storeByte_get?_other {a a' : Nat} (b : Byte) (s : State) (h : a' ≠ a) :
    Memory.get? (storeByte a b s).mem a' = Memory.get? s.mem a' := by
  rcases storeByte_cases a b s with ⟨-, -, hs⟩ | ⟨-, hs⟩ <;> rw [hs]
  · exact Memory.get?_set_other _ _ h
  · exact Memory.get?_forget_other _ h

/-- Every byte held after a store was held before, or is at an R/W address. -/
theorem storeByte_held_rw {a : Nat} {b : Byte} {s : State} (hs : ∀ c ∈ s.mem, chipAccess s.params c.1 .rw = true) :
    ∀ c ∈ (storeByte a b s).mem, chipAccess s.params c.1 .rw = true := by
  intro c hc
  rcases storeByte_cases a b s with ⟨ha, -, h⟩ | ⟨-, h⟩ <;> rw [h] at hc
  · exact (Memory.mem_set hc).elim (fun h => h ▸ ha) (hs c)
  · exact hs c (Memory.mem_forget hc)

/-- Where a function command may be acting, nothing comes to be held. -/
theorem storeByte_unsettled {a : Nat} {b : Byte} {s : State} (hu : s.chipUnsettled = true) (hm : s.mem = []) :
    (storeByte a b s).mem = [] := by
  rcases storeByte_cases a b s with ⟨-, h, -⟩ | ⟨-, h⟩
  · rw [hu] at h
    cases h
  · rw [h, hm]
    rfl

end Sys2Proof.Machine
end

