-- ==== Sys2Proof/Laws/Ops.lean ====
section
/-!
SUPPORT. What each shared operation of the instructions can do, said once.
-/
namespace Sys2Proof

/-- A quotient exists exactly by an admitted sense resistance of the dividend's format. -/
theorem NumVal.quotient?_scale_isSome (fmt : NumFormat) (raw : Int) (factor : Rat) (r : NumVal) :
    ((NumVal.scale fmt raw factor).quotient? r).isSome = NumVal.admissible fmt r := by
  cases fmt <;> cases r <;> simp only [NumVal.scale, NumVal.quotient?, NumVal.admissible, Option.isSome_none]
  · split <;> simp_all
  · split <;> simp_all
  · split <;> simp_all

/-- The same for the reciprocal construction caches. -/
theorem NumVal.reciprocal?_isSome (fmt : NumFormat) (r : NumVal) : (NumVal.reciprocal? fmt r).isSome = NumVal.admissible fmt r := by
  cases fmt <;> cases r <;> simp only [NumVal.reciprocal?, NumVal.ofRat, NumVal.quotient?, NumVal.admissible, Option.isSome_none]
  · split <;> simp_all
  · split <;> simp_all
  · split <;> simp_all

namespace Machine

variable {s t : State} {q : Quantity} {data1 data2 : Byte}

/-- A quantity that is not divided by `RSNS` is converted in every state. -/
theorem convert?_undivided (h : q.divByRsns = false) (raw : Int) : convert? s q raw = some (transfer s.params q raw) := by
  simp [convert?, h]

/-- A quantity of the current family is the quotient of its transfer by `RSNS`. -/
theorem convert?_divided (h : q.divByRsns = true) (raw : Int) :
    convert? s q raw = (transfer s.params q raw).quotient? s.rsns := by
  simp [convert?, h]

/-- With an admitted sense resistance every conversion has a value. -/
theorem convert?_isSome (h : NumVal.admissible s.params.numFormat s.rsns = true) (q : Quantity) (raw : Int) :
    (convert? s q raw).isSome = true := by
  cases hq : q.divByRsns
  · simp [convert?_undivided hq]
  · rw [convert?_divided hq, transfer, NumVal.quotient?_scale_isSome, h]

theorem conversion_of_some {v : NumVal} (h : convert? s q (operandOf s q data1 data2) = some v) :
    conversion q data1 data2 s = .next (s.respond (.num v)) := by
  simp [conversion, h]

/-- If a conversion answers, it has driven the response port with a number and done nothing else. -/
theorem conversion_next (h : conversion q data1 data2 s = .next t) :
    ∃ v, convert? s q (operandOf s q data1 data2) = some v ∧ t = s.respond (.num v) := by
  unfold conversion at h
  split at h
  · exact ⟨_, ‹_›, by cases h; rfl⟩
  · cases h

theorem negatedConversion_of_some {v : NumVal} (h : convert? s q (operandOf s q data1 data2) = some v) :
    negatedConversion q data1 data2 s = .next (s.respond (.num v.neg)) := by
  simp [negatedConversion, h]

theorem negatedConversion_next (h : negatedConversion q data1 data2 s = .next t) :
    ∃ v, convert? s q (operandOf s q data1 data2) = some v ∧ t = s.respond (.num v.neg) := by
  unfold negatedConversion at h
  split at h
  · exact ⟨_, ‹_›, by cases h; rfl⟩
  · cases h

/-- What a function command leaves. -/
def afterCommand (cmd : Byte) (s : State) : State :=
  { s with mem := [], chipUnsettled := true, ret := none, bus := s.bus ++ [writeFrame s 0xFE [cmd]] }

theorem functionCommand_eq (cmd : Byte) (s : State) : functionCommand cmd s = .next (afterCommand cmd s) := rfl

/-! The meaning of each instruction as its shared operation. -/

section Meanings

variable (data1 data2 : Byte) (s : State)

theorem exec_xvolt : exec (.xvolt data1 data2) s = conversion .volt data1 data2 s := rfl

theorem exec_xtemp : exec (.xtemp data1 data2) s = conversion .temp data1 data2 s := rfl

theorem exec_xcurr : exec (.xcurr data1 data2) s = conversion .curr data1 data2 s := rfl

theorem exec_xiavg : exec (.xiavg data1 data2) s = conversion .iavg data1 data2 s := rfl

theorem exec_xacr : exec (.xacr data1 data2) s = conversion .acr data1 data2 s := rfl

theorem exec_xacrl : exec (.xacrl data1 data2) s = conversion .acrl data1 data2 s := rfl

theorem exec_xab : exec (.xab data1 data2) s = conversion .ab data1 data2 s := rfl

theorem exec_xacap : exec (.xacap data1 data2) s = conversion .acap data1 data2 s := rfl

theorem exec_xvsns : exec (.xvsns data1 data2) s = conversion .vsns data1 data2 s := rfl

theorem exec_rvolt : exec (.rvolt data1 data2) s = negatedConversion .volt data1 data2 s := rfl

theorem exec_dstat : exec (.dstat data1) s = decodeView s.params.statusFields data1 s := rfl

theorem exec_dctrl : exec (.dctrl data1) s = decodeView s.params.controlFields data1 s := rfl

theorem exec_dsfr : exec (.dsfr data1) s = decodeView s.params.sfrFields data1 s := rfl

theorem exec_deep : exec (.deep data1) s = decodeView s.params.eepromFields data1 s := rfl

end Meanings

/-- If an instruction answers, it has driven the response port with a value and done nothing else, or it has sent a command
byte. -/
theorem exec_next {i : Instr} (h : exec i s = .next t) :
    (∃ r, r ≠ .invalid ∧ t = s.respond r) ∨ ∃ cmd, t = afterCommand cmd s := by
  cases i
  case xvolt | xtemp | xcurr | xiavg | xacr | xacrl | xab | xacap | xvsns =>
    simp only [exec_xvolt, exec_xtemp, exec_xcurr, exec_xiavg, exec_xacr, exec_xacrl,
      exec_xab, exec_xacap, exec_xvsns] at h
    obtain ⟨v, -, rfl⟩ := conversion_next h
    exact .inl ⟨_, by simp, rfl⟩
  case rvolt =>
    rw [exec_rvolt] at h
    obtain ⟨v, -, rfl⟩ := negatedConversion_next h
    exact .inl ⟨_, by simp, rfl⟩
  case dstat | dctrl | dsfr | deep =>
    cases h
    exact .inl ⟨_, by simp, rfl⟩
  case copy0 | copy1 | recall0 | recall1 | lock0 | lock1 =>
    cases h
    exact .inr ⟨_, rfl⟩

end Machine

end Sys2Proof
end

