-- ==== Sys2Proof/Laws/Calls.lean ====
section
/-!
SUPPORT. What each host call can do, said once.
-/
namespace Sys2Proof.Machine

variable {s t : State}

/-- If a bus read answers, it has made one transaction, counted the free bytes it drew and changed nothing else. -/
theorem busRead_ok {w : RawWidth} {a : Byte} {v : RawValue} (h : busRead w a s = .ok (v, t)) :
    ∃ data n, t = { s with draws := n, bus := s.bus ++ [readFrame s a data] } := by
  have key : ∀ b u, (fetchByte b u).2 = { u with draws := (fetchByte b u).2.draws } := by
    intro b u
    rcases fetchByte_state b u with hs | hs <;> rw [hs]
  cases w <;> simp only [busRead] at h
  · split at h
    · cases h
    · cases h
      refine ⟨[(fetchByte a.toNat s).1], (fetchByte a.toNat s).2.draws, ?_⟩
      rw [key]
      rfl
  · split at h
    · cases h
    · split at h
      · cases h
      · cases h
      · cases h
        refine ⟨[(fetchByte a.toNat s).1, (fetchByte (a.toNat + 1) (fetchByte a.toNat s).2).1],
          (fetchByte (a.toNat + 1) (fetchByte a.toNat s).2).2.draws, ?_⟩
        rw [key (a.toNat + 1), key a.toNat]
        rfl

theorem protocolRead_next {w : RawWidth} {a : Byte} (h : protocolRead w a s = .next t) :
    ∃ v u, busRead w a s = .ok (v, u) ∧ t = u.returning (some v) := by
  unfold protocolRead at h
  split at h
  · cases h
  · cases h
    exact ⟨_, _, ‹_›, rfl⟩

/-- If a request answers, it has driven the response port and done nothing else. -/
theorem request_next {req : RequestWord} (h : request req s = .next t) : ∃ r, t = s.respond r := by
  have hmod : ∀ i, decodeRequest req = .ok i → exec i s = .next t → ∃ r, t = s.respond r := by
    intro i hi hx
    unfold decodeRequest at hi
    split at hi <;> cases hi
    case h_1 | h_3 | h_4 | h_5 | h_6 | h_7 | h_8 | h_9 | h_10 =>
      simp only [exec_xvolt, exec_xtemp, exec_xcurr, exec_xiavg, exec_xacr, exec_xacrl,
        exec_xab, exec_xacap, exec_xvsns] at hx
      obtain ⟨v, -, hv⟩ := conversion_next hx
      exact ⟨_, hv⟩
    case h_2 =>
      rw [exec_rvolt] at hx
      obtain ⟨v, -, hv⟩ := negatedConversion_next hx
      exact ⟨_, hv⟩
    all_goals
      cases hx
      exact ⟨_, rfl⟩
  unfold request at h
  split at h
  · exact hmod _ ‹_› h
  · cases h
    exact ⟨_, rfl⟩

/-- If a command byte answers, it was one of the six, and it was sent. -/
theorem command_next {cmd : Byte} (h : command cmd s = .next t) : t = afterCommand cmd s := by
  unfold command at h
  split at h
  · rename_i i hi
    simp only [decode, decodeCommand] at hi
    have hb : cmd = BitVec.ofNat 8 cmd.toNat := by simp
    split at hi <;> cases hi <;> rename_i hc <;> cases h <;>
      · rw [hc] at hb
        subst hb
        rfl
  · cases h

/-- If a byte write answers, it was a command byte sent to 0xFE, or the byte was stored by one transaction. -/
theorem protocolWriteByte_next {a v : Byte} (h : protocolWriteByte a v s = .next t) :
    (a = 0xFE ∧ t = afterCommand v s) ∨
      (a ≠ 0xFE ∧ writeRefusal? s.params a.toNat = none ∧
        t = { s with mem := (storeByte a.toNat v s).mem, ret := none, bus := s.bus ++ [writeFrame s a [v]] }) := by
  unfold protocolWriteByte at h
  split at h
  · exact .inl ⟨‹_›, command_next h⟩
  · split at h
    · cases h
    · cases h
      refine .inr ⟨‹_›, ‹_›, ?_⟩
      rw [storeByte_eq]
      rfl

/-- A byte that lands changes the memory, and at 0xFE it unsettles the chip. -/
theorem landByte_cases (a : Nat) (b : Byte) (s : State) :
    (a = 0xFE ∧ landByte a b s = s.disturbChip) ∨ (a ≠ 0xFE ∧ landByte a b s = storeByte a b s) := by
  by_cases h : a = 0xFE <;> simp [landByte, h]

theorem landByte_eq (a : Nat) (b : Byte) (s : State) :
    landByte a b s = { s with mem := (landByte a b s).mem, chipUnsettled := (landByte a b s).chipUnsettled } := by
  rcases landByte_cases a b s with ⟨-, h⟩ | ⟨-, h⟩ <;> rw [h]
  · rfl
  · rw [storeByte_eq]

theorem landByte_wf {a : Nat} {b : Byte} {s : State} (ha : a < 256) (hm : Memory.wf s.mem) :
    Memory.wf (landByte a b s).mem := by
  rcases landByte_cases a b s with ⟨-, h⟩ | ⟨-, h⟩ <;> rw [h]
  · exact ⟨.nil, nofun⟩
  · exact storeByte_wf ha hm

theorem landByte_held_rw {a : Nat} {b : Byte} {s : State} (hs : ∀ c ∈ s.mem, chipAccess s.params c.1 .rw = true) :
    ∀ c ∈ (landByte a b s).mem, chipAccess s.params c.1 .rw = true := by
  rcases landByte_cases a b s with ⟨-, h⟩ | ⟨-, h⟩ <;> rw [h]
  · exact nofun
  · exact storeByte_held_rw hs

/-- An unsettled chip stays so, and a byte that lands is not held there. -/
theorem landByte_unsettled {a : Nat} {b : Byte} {s : State} (hs : s.chipUnsettled = true → s.mem = [])
    (h : (landByte a b s).chipUnsettled = true) : (landByte a b s).mem = [] := by
  rcases landByte_cases a b s with ⟨-, hl⟩ | ⟨-, hl⟩
  · rw [hl]
    rfl
  · rw [hl] at h ⊢
    rw [storeByte_eq] at h
    exact storeByte_unsettled h (hs h)

/-- If a word write answers, both bytes landed, the most significant first, by one transaction. -/
theorem protocolWriteWord_next {a : Byte} {v : Word16} (h : protocolWriteWord a v s = .next t) :
    a ≠ 0xFF ∧ landingRefusal? s.params a.toNat (highByte v) = none ∧
      landingRefusal? s.params (a.toNat + 1) (lowByte v) = none ∧
      t = { s with
        mem := (landByte (a.toNat + 1) (lowByte v) (landByte a.toNat (highByte v) s)).mem
        chipUnsettled := (landByte (a.toNat + 1) (lowByte v) (landByte a.toNat (highByte v) s)).chipUnsettled
        ret := none
        bus := s.bus ++ [writeFrame s a [highByte v, lowByte v]] } := by
  unfold protocolWriteWord at h
  split at h
  · cases h
  · split at h
    · cases h
    · cases h
    · cases h
      refine ⟨‹_›, ‹_›, ‹_›, ?_⟩
      rw [landByte_eq (a.toNat + 1), landByte_eq a.toNat]
      rfl

/-- If a block command answers, it ran the command of its block, or its index was neither 0 nor 1 and nothing happened. -/
theorem blockCommand_next {n : Int} {i0 i1 : Instr} (h : blockCommand n i0 i1 s = .next t) :
    (n = 0 ∧ exec i0 s = .next t) ∨ (n = 1 ∧ exec i1 s = .next t) ∨ (n ≠ 0 ∧ n ≠ 1 ∧ t = s.returning none) := by
  unfold blockCommand at h
  split at h
  · exact .inl ⟨‹_›, h⟩
  · split at h
    · exact .inr (.inl ⟨‹_›, h⟩)
    · cases h
      exact .inr (.inr ⟨‹_›, ‹_›, rfl⟩)

/-- If an accessor answers, it read its register and its request then answered. -/
theorem reading_next {r : Reading} (h : reading r s = .next t) :
    ∃ v u, busRead (s.params.format r.quantity).width (s.params.regmap.entry r.register).addr s = .ok (v, u) ∧
      exec (r.instr v.data1 v.data2) (u.returning (some v)) = .next t := by
  unfold reading at h
  split at h
  · cases h
  · split at h
    · cases h
    · exact ⟨_, _, ‹_›, h⟩

/-- If a register read at an offset answers, it was a protocol read. -/
theorem readRegisterAt_next {name : RegName} {w : RawWidth} {offset : Nat} (h : readRegisterAt name w offset s = .next t) :
    protocolRead w ((s.params.regmap.entry name).addrAt offset) s = .next t := by
  unfold readRegisterAt at h
  split at h
  · cases h
  · split at h
    · exact h
    · cases h

/-- If a register write at an offset answers, it was a protocol write. -/
theorem writeRegisterAt_next {name : RegName} {w : RawWidth} {offset : Nat} {v : Word16}
    (h : writeRegisterAt name w offset v s = .next t) :
    protocolWriteByte ((s.params.regmap.entry name).addrAt offset) (lowByte v) s = .next t ∨
      protocolWriteWord ((s.params.regmap.entry name).addrAt offset) v s = .next t := by
  unfold writeRegisterAt at h
  split at h
  · cases h
  · split at h
    · split at h
      · exact .inl h
      · exact .inr h
    · cases h

/-- If a register read by name answers, it was a read at offset 0. -/
theorem readRegister_next {name : RegName} (h : readRegister name s = .next t) :
    ∃ w, readRegisterAt name w 0 s = .next t := by
  unfold readRegister at h
  split at h
  · exact ⟨_, h⟩
  · cases h

/-- If a register write by name answers, it was a write at offset 0. -/
theorem writeRegister_next {name : RegName} {v : Word16} (h : writeRegister name v s = .next t) :
    ∃ w, writeRegisterAt name w 0 v s = .next t := by
  unfold writeRegister at h
  split at h
  · exact ⟨_, h⟩
  · cases h

end Sys2Proof.Machine
end

