-- ==== Sys2Proof/Laws/Decode.lean ====
section
/-!
SUPPORT. Fields of a request word, operands and bits in the library's own terms.
-/
namespace Sys2Proof

/-- The bits of a request word. -/
theorem getLsbD_requestWord (o d1 d2 : Byte) (i : Nat) :
    (requestWord o d1 d2).getLsbD i =
      if i < 8 then d2.getLsbD i else if i - 8 < 8 then d1.getLsbD (i - 8) else o.getLsbD (i - 8 - 8) := by
  have h1 : (requestWord o d1 d2).getLsbD i = if i < 8 then d2.getLsbD i else (o ++ d1).getLsbD (i - 8) :=
    BitVec.getLsbD_append
  rw [h1, show (o ++ d1).getLsbD (i - 8) = if i - 8 < 8 then d1.getLsbD (i - 8) else o.getLsbD (i - 8 - 8) from
    BitVec.getLsbD_append]

@[simp] theorem opselOf_requestWord (o d1 d2 : Byte) : opselOf (requestWord o d1 d2) = o := by
  apply BitVec.eq_of_getLsbD_eq
  intro i hi
  rw [opselOf, BitVec.getLsbD_extractLsb', getLsbD_requestWord]
  simp [hi, show ¬ 16 + i < 8 by omega, show ¬ 16 + i - 8 < 8 by omega, show 16 + i - 8 - 8 = i by omega]

@[simp] theorem data1Of_requestWord (o d1 d2 : Byte) : data1Of (requestWord o d1 d2) = d1 := by
  apply BitVec.eq_of_getLsbD_eq
  intro i hi
  rw [data1Of, BitVec.getLsbD_extractLsb', getLsbD_requestWord]
  simp [hi]

@[simp] theorem data2Of_requestWord (o d1 d2 : Byte) : data2Of (requestWord o d1 d2) = d2 := by
  apply BitVec.eq_of_getLsbD_eq
  intro i hi
  rw [data2Of, BitVec.getLsbD_extractLsb', getLsbD_requestWord]
  simp [hi]

/-- A request word is its three fields. -/
theorem requestWord_fields (req : RequestWord) : requestWord (opselOf req) (data1Of req) (data2Of req) = req := by
  apply BitVec.eq_of_getLsbD_eq
  intro i hi
  rw [getLsbD_requestWord, opselOf, data1Of, data2Of]
  simp only [BitVec.getLsbD_extractLsb']
  split
  · simp [*]
  · split
    · simp [show 8 + (i - 8) = i by omega, *]
    · simp [show 16 + (i - 8 - 8) = i by omega, show i - 8 - 8 < 8 by omega]

/-- Under the mask of `OPSEL` a request word keeps its code alone. -/
theorem requestWord_and_mask (o d1 d2 : Byte) : requestWord o d1 d2 &&& 0xFF0000#24 = requestWord o 0 0 := by
  apply BitVec.eq_of_getLsbD_eq
  intro i hi
  rw [BitVec.getLsbD_and, getLsbD_requestWord, getLsbD_requestWord]
  interval_cases i <;> simp

theorem sextInt_eq_toInt {n : Nat} (v : BitVec (n + 1)) : sextInt v = v.toInt := by
  unfold sextInt
  rw [BitVec.toInt_eq_toNat_cond]
  have : 2 ^ (n + 1) = 2 * 2 ^ n := by rw [pow_succ, mul_comm]
  simp only [Nat.add_sub_cancel]
  split <;> split
  · rfl
  · omega
  · omega
  · push_cast
    rfl

theorem raw16_toNat (d1 d2 : Byte) : (raw16 d1 d2).toNat = d1.toNat * 256 + d2.toNat := by
  have h : (raw16 d1 d2).toNat = d1.toNat <<< 8 ||| d2.toNat := BitVec.toNat_append d1 d2
  rw [h, ← Nat.shiftLeft_add_eq_or_of_lt d2.isLt, Nat.shiftLeft_eq]

/-- The bits of an assembled word. -/
theorem getLsbD_raw16 (d1 d2 : Byte) (i : Nat) :
    (raw16 d1 d2).getLsbD i = if i < 8 then d2.getLsbD i else d1.getLsbD (i - 8) :=
  BitVec.getLsbD_append

/-- The two bytes of a word, the most significant first, make the word again. -/
@[simp] theorem raw16_highByte_lowByte (w : Word16) : raw16 (highByte w) (lowByte w) = w := by
  apply BitVec.eq_of_getLsbD_eq
  intro i hi
  rw [getLsbD_raw16, highByte, lowByte]
  simp only [BitVec.getLsbD_extractLsb']
  split
  · simp [*]
  · simp [show 8 + (i - 8) = i by omega, show i - 8 < 8 by omega]

@[simp] theorem highByte_raw16 (d1 d2 : Byte) : highByte (raw16 d1 d2) = d1 := by
  apply BitVec.eq_of_getLsbD_eq
  intro i hi
  rw [highByte, BitVec.getLsbD_extractLsb', getLsbD_raw16]
  simp [hi]

@[simp] theorem lowByte_raw16 (d1 d2 : Byte) : lowByte (raw16 d1 d2) = d2 := by
  apply BitVec.eq_of_getLsbD_eq
  intro i hi
  rw [lowByte, BitVec.getLsbD_extractLsb', getLsbD_raw16]
  simp [hi]

namespace Machine

theorem bitOf_eq_getLsbD (b : Byte) (i : Nat) : bitOf b i = b.getLsbD i := by
  unfold bitOf
  rw [Bool.eq_iff_iff, beq_iff_eq]
  constructor
  · intro h
    have := congrArg (·.getLsbD 0) h
    simpa using this
  · intro h
    ext j hj
    rcases j with _ | j
    · simpa using h
    · simp

/-- Output i of the view of a byte is bit i of the byte. -/
theorem unpackByte_bit (b : Byte) (i : Fin 8) : (unpackByte b).bit i = b.getLsbD i := by
  fin_cases i <;> exact bitOf_eq_getLsbD b _

end Machine

end Sys2Proof
end

