-- ==== Sys2Proof/Laws/PerInstr.lean ====
section
/-!
SUPPORT. The family of statements made per instruction: `TableRow`, that an instruction's word lies in its row of
spec/opcode_table.json, under the row's mask.
-/
namespace Sys2Proof.Laws.TableRow

/-- The row's `match`; its mask is 0xFF0000 for a 24-bit row and 0xFF for an 8-bit one. -/
def rowMatch : Instr → CodeWord
  | .xvolt _ _ => .request 0x000000
  | .rvolt _ _ => .request 0x010000
  | .xtemp _ _ => .request 0x020000
  | .xcurr _ _ => .request 0x030000
  | .xiavg _ _ => .request 0x040000
  | .xacr _ _ => .request 0x050000
  | .xacrl _ _ => .request 0x060000
  | .xab _ _ => .request 0x070000
  | .xacap _ _ => .request 0x080000
  | .xvsns _ _ => .request 0x090000
  | .dstat _ => .request 0x100000
  | .dctrl _ => .request 0x110000
  | .dsfr _ => .request 0x120000
  | .deep _ => .request 0x130000
  | .copy0 => .command 0x42
  | .copy1 => .command 0x44
  | .recall0 => .command 0xB2
  | .recall1 => .command 0xB4
  | .lock0 => .command 0x63
  | .lock1 => .command 0x66

/-- The word under the mask of its row. -/
def masked : CodeWord → CodeWord
  | .request req => .request (req &&& 0xFF0000)
  | .command cmd => .command (cmd &&& 0xFF)

/-- Every instruction is well-formed, and its word under its row's mask is its row's match. -/
def Statement (i : Instr) : Prop := i.wellFormed = true ∧ masked (encode i) = rowMatch i

theorem xvolt (data1 data2 : Byte) : Statement (.xvolt data1 data2) :=
  ⟨rfl, congrArg CodeWord.request (requestWord_and_mask 0x00 data1 data2)⟩

theorem rvolt (data1 data2 : Byte) : Statement (.rvolt data1 data2) :=
  ⟨rfl, congrArg CodeWord.request (requestWord_and_mask 0x01 data1 data2)⟩

theorem xtemp (data1 data2 : Byte) : Statement (.xtemp data1 data2) :=
  ⟨rfl, congrArg CodeWord.request (requestWord_and_mask 0x02 data1 data2)⟩

theorem xcurr (data1 data2 : Byte) : Statement (.xcurr data1 data2) :=
  ⟨rfl, congrArg CodeWord.request (requestWord_and_mask 0x03 data1 data2)⟩

theorem xiavg (data1 data2 : Byte) : Statement (.xiavg data1 data2) :=
  ⟨rfl, congrArg CodeWord.request (requestWord_and_mask 0x04 data1 data2)⟩

theorem xacr (data1 data2 : Byte) : Statement (.xacr data1 data2) :=
  ⟨rfl, congrArg CodeWord.request (requestWord_and_mask 0x05 data1 data2)⟩

theorem xacrl (data1 data2 : Byte) : Statement (.xacrl data1 data2) :=
  ⟨rfl, congrArg CodeWord.request (requestWord_and_mask 0x06 data1 data2)⟩

theorem xab (data1 data2 : Byte) : Statement (.xab data1 data2) :=
  ⟨rfl, congrArg CodeWord.request (requestWord_and_mask 0x07 data1 data2)⟩

theorem xacap (data1 data2 : Byte) : Statement (.xacap data1 data2) :=
  ⟨rfl, congrArg CodeWord.request (requestWord_and_mask 0x08 data1 data2)⟩

theorem xvsns (data1 data2 : Byte) : Statement (.xvsns data1 data2) :=
  ⟨rfl, congrArg CodeWord.request (requestWord_and_mask 0x09 data1 data2)⟩

theorem dstat (data1 : Byte) : Statement (.dstat data1) :=
  ⟨rfl, congrArg CodeWord.request (requestWord_and_mask 0x10 data1 0)⟩

theorem dctrl (data1 : Byte) : Statement (.dctrl data1) :=
  ⟨rfl, congrArg CodeWord.request (requestWord_and_mask 0x11 data1 0)⟩

theorem dsfr (data1 : Byte) : Statement (.dsfr data1) :=
  ⟨rfl, congrArg CodeWord.request (requestWord_and_mask 0x12 data1 0)⟩

theorem deep (data1 : Byte) : Statement (.deep data1) :=
  ⟨rfl, congrArg CodeWord.request (requestWord_and_mask 0x13 data1 0)⟩

theorem copy0 : Statement .copy0 := ⟨rfl, rfl⟩

theorem copy1 : Statement .copy1 := ⟨rfl, rfl⟩

theorem recall0 : Statement .recall0 := ⟨rfl, rfl⟩

theorem recall1 : Statement .recall1 := ⟨rfl, rfl⟩

theorem lock0 : Statement .lock0 := ⟨rfl, rfl⟩

theorem lock1 : Statement .lock1 := ⟨rfl, rfl⟩

end Sys2Proof.Laws.TableRow
end

