-- ==== Sys2Proof/Laws/Registers.lean ====
section
/-!
SUPPORT. In an instance with admitted parameters no access by name is refused that the named register's own mode allows.
-/
namespace Sys2Proof.Machine

variable {p : Params}

theorem mem_singleView {m : RegMap} {name : RegName} (h : name ≠ .parameterEeprom) : m.entry name ∈ m.singleView :=
  List.mem_append_left _ (List.mem_map_of_mem (by cases name <;> first | exact absurd rfl h | decide))

theorem mem_entries (m : RegMap) (name : RegName) : m.entry name ∈ m.entries := by
  by_cases h : name = .parameterEeprom
  · subst h
    exact List.mem_cons_self
  · exact List.mem_cons_of_mem _ (mem_singleView h)

theorem covers_offset {e : RegEntry} {offset : Nat} (h : offset < e.width.bytes) : e.covers (e.addr.toNat + offset) = true := by
  simp [RegEntry.covers, RegEntry.past, h]

/-- The parts of admitted parameters that the register map's laws rest on. -/
theorem wellFormed_map (h : p.wellFormed = true) :
    (∀ e ∈ p.regmap.singleView, e.wellFormed = true) ∧ p.regmap.noAlias = true ∧ p.regmap.fixedModes = true ∧
      p.readsFit = true ∧ p.reservedWellFormed = true := by
  simp only [Params.wellFormed, Params.regmapWellFormed, RegMap.fixedParts, Bool.and_eq_true, List.all_eq_true] at h
  exact ⟨h.1.2.1.1.1, h.1.2.1.1.2, h.1.2.1.2.2, h.1.2.2, h.2⟩

theorem entry_past_le (h : p.wellFormed = true) (name : RegName) : (p.regmap.entry name).past ≤ 256 := by
  by_cases hn : name = .parameterEeprom
  · subst hn
    exact of_decide_eq_true rfl
  · have := (wellFormed_map h).1 _ (mem_singleView hn)
    simp only [RegEntry.wellFormed, Bool.and_eq_true, decide_eq_true_eq] at this
    exact this.1

theorem entry_not_reserved (h : p.wellFormed = true) (name : RegName) {a : Nat}
    (ha : (p.regmap.entry name).covers a = true) : isReserved p a = false := by
  have hr := (wellFormed_map h).2.2.2.2
  simp only [Params.reservedWellFormed, List.all_eq_true, Bool.not_eq_true'] at hr
  simp only [isReserved, List.any_eq_false, beq_iff_eq]
  rintro r hm rfl
  rw [hr r hm _ (mem_entries _ name)] at ha
  cases ha

/-- Where a register is, the mode of all registers there is that register's, or there is no such mode. -/
theorem chipAccess_entry (name : RegName) {a : Nat} {m : Access} (ha : (p.regmap.entry name).covers a = true)
    (hm : (p.regmap.entry name).access ≠ m) : chipAccess p a m = false := by
  by_contra hc
  simp only [chipAccess, Bool.not_eq_false, Bool.and_eq_true, List.all_eq_true, List.mem_filter, beq_iff_eq] at hc
  exact hm (hc.2 _ ⟨mem_entries _ name, ha⟩)

/-- No register but the function-command register is at 0xFE (spec/20_memory.md R34). -/
theorem entry_not_command (h : p.wellFormed = true) {name : RegName} (hn : name ≠ .functionCommand) {a : Nat}
    (ha : (p.regmap.entry name).covers a = true) : a ≠ 0xFE := by
  rintro rfl
  by_cases hp : name = .parameterEeprom
  · subst hp
    simp [RegMap.entry, RegEntry.covers, RegEntry.past, parameterEepromEntry, RegWidth.bytes] at ha
  have hpair := (wellFormed_map h).2.1
  have hmap := List.pairwise_map.1 (List.pairwise_append.1 (of_decide_eq_true hpair)).1
  have hsplit : RegName.singleView = RegName.singleView.dropLast ++ [.functionCommand] := by decide
  rw [hsplit] at hmap
  have hin : name ∈ RegName.singleView.dropLast := by
    cases name <;> first | exact absurd rfl hp | exact absurd rfl hn | decide
  have hapart : (p.regmap.entry name).apart functionCommandEntry = true :=
    (List.pairwise_append.1 hmap).2.2 _ hin _ (List.mem_singleton_self _)
  have h254 : functionCommandEntry.addr.toNat = 254 := rfl
  have h255 : functionCommandEntry.past = 255 := rfl
  simp only [RegEntry.apart, h254, h255, Bool.or_eq_true, decide_eq_true_eq] at hapart
  simp only [RegEntry.covers, Bool.and_eq_true, decide_eq_true_eq] at ha
  omega

theorem entry_addrAt (h : p.wellFormed = true) (name : RegName) {offset : Nat}
    (ho : offset < (p.regmap.entry name).width.bytes) :
    ((p.regmap.entry name).addrAt offset).toNat = (p.regmap.entry name).addr.toNat + offset := by
  have := entry_past_le h name
  simp only [RegEntry.past] at this
  simp only [RegEntry.addrAt, BitVec.toNat_ofNat]
  omega

/-- A byte of a register that can be read is not refused. -/
theorem readRefusal?_entry (h : p.wellFormed = true) {name : RegName} (hn : name ≠ .functionCommand)
    (hw : (p.regmap.entry name).access ≠ .w) {a : Nat} (ha : (p.regmap.entry name).covers a = true) :
    readRefusal? p a = none := by
  simp [readRefusal?, entry_not_reserved h name ha, entry_not_command h hn ha, chipAccess_entry name ha hw]

/-- Nor is a byte written to a register that can be written. -/
theorem landingRefusal?_entry (h : p.wellFormed = true) {name : RegName} (hn : name ≠ .functionCommand)
    (hw : (p.regmap.entry name).access ≠ .r) {a : Nat} (ha : (p.regmap.entry name).covers a = true) (b : Byte) :
    landingRefusal? p a b = none := by
  simp [landingRefusal?, writeRefusal?, entry_not_reserved h name ha, entry_not_command h hn ha, chipAccess_entry name ha hw]

variable {s : State}

/-- A read at an offset within a register that can be read answers. -/
theorem busRead_entry (h : s.params.wellFormed = true) {name : RegName} (hn : name ≠ .functionCommand)
    (hw : (s.params.regmap.entry name).access ≠ .w) {width : RawWidth} {offset : Nat}
    (ho : offset + accessBytes width ≤ (s.params.regmap.entry name).width.bytes) :
    ∃ v t, busRead width ((s.params.regmap.entry name).addrAt offset) s = .ok (v, t) := by
  have hlt : offset < (s.params.regmap.entry name).width.bytes := by cases width <;> simp only [accessBytes] at ho <;> omega
  have ha := entry_addrAt h name hlt
  have hp := entry_past_le h name
  simp only [RegEntry.past] at hp
  have h0 := readRefusal?_entry h hn hw (covers_offset hlt)
  cases width
  · simp only [busRead, ha, h0]
    exact ⟨_, _, rfl⟩
  · simp only [accessBytes] at ho
    have h1 := readRefusal?_entry h hn hw (covers_offset (show offset + 1 < _ by omega))
    have hff : (s.params.regmap.entry name).addrAt offset ≠ 0xFF := fun hc => by
      rw [hc] at ha
      change 255 = _ at ha
      omega
    simp only [busRead, ha, hff, if_false, h0, Nat.add_assoc, h1]
    exact ⟨_, _, rfl⟩

/-- So does a read of it by name there. -/
theorem readRegisterAt_entry (h : s.params.wellFormed = true) {name : RegName} (hn : name ≠ .functionCommand)
    (hw : (s.params.regmap.entry name).access ≠ .w) {width : RawWidth} {offset : Nat}
    (ho : offset + accessBytes width ≤ (s.params.regmap.entry name).width.bytes) :
    ∃ t, readRegisterAt name width offset s = .next t := by
  obtain ⟨v, t, hb⟩ := busRead_entry h hn hw ho
  simp only [readRegisterAt, nameReadRefusal?, hw, if_false, ho, if_true, protocolRead, hb]
  exact ⟨_, rfl⟩

/-- A write at an offset within a register that can be written answers. -/
theorem writeRegisterAt_entry (h : s.params.wellFormed = true) {name : RegName} (hn : name ≠ .functionCommand)
    (hw : (s.params.regmap.entry name).access ≠ .r) {width : RawWidth} {offset : Nat}
    (ho : offset + accessBytes width ≤ (s.params.regmap.entry name).width.bytes) (v : Word16) :
    ∃ t, writeRegisterAt name width offset v s = .next t := by
  have hlt : offset < (s.params.regmap.entry name).width.bytes := by cases width <;> simp only [accessBytes] at ho <;> omega
  have ha := entry_addrAt h name hlt
  have hp := entry_past_le h name
  have hfe := entry_not_command h hn (covers_offset hlt)
  have hne : (s.params.regmap.entry name).addrAt offset ≠ 0xFE := fun hc => hfe (by rw [← ha, hc]; rfl)
  have h0 := landingRefusal?_entry h hn hw (covers_offset hlt)
  simp only [writeRegisterAt, nameWriteRefusal?, hw, if_false, ho, if_true]
  cases width
  · have := h0 (lowByte v)
    simp only [landingRefusal?, hfe, if_false] at this
    simp only [protocolWriteByte, hne, if_false, ha, this]
    exact ⟨_, rfl⟩
  · simp only [accessBytes] at ho
    simp only [RegEntry.past] at hp
    have h1 := landingRefusal?_entry h hn hw (covers_offset (show offset + 1 < _ by omega))
    have hff : (s.params.regmap.entry name).addrAt offset ≠ 0xFF := fun hc => by
      rw [hc] at ha
      change 255 = _ at ha
      omega
    simp only [protocolWriteWord, ha, hff, if_false, h0, Nat.add_assoc, h1]
    exact ⟨_, rfl⟩

/-- The named registers' modes (spec/20_memory.md R42, R46). -/
theorem entry_access (h : p.wellFormed = true) (name : RegName) :
    (name ∈ RegName.readWrite → (p.regmap.entry name).access = .rw) ∧
      (name ≠ .functionCommand → (p.regmap.entry name).access ≠ .w) := by
  have hm := (wellFormed_map h).2.2.1
  simp only [RegMap.fixedModes, Bool.and_eq_true, List.all_eq_true, Bool.or_eq_true, beq_iff_eq, bne_iff_ne] at hm
  refine ⟨fun hn => hm.1.1 name hn, fun hn => ?_⟩
  by_cases hp : name = .parameterEeprom
  · subst hp
    exact (nofun : Access.rw ≠ .w)
  · exact (hm.2 name (by cases name <;> first | exact absurd rfl hp | decide)).resolve_left hn

end Sys2Proof.Machine
end

