-- ==== Sys2Proof/Tests/Slice0.lean ====
section
/-!
SUPPORT. Tests of the model against the words, vectors and worked examples of the spec (spec/95_test_vectors.md unless
another file is named), refusals of ill-formed parameters, and for every statement with hypotheses a witness that meets
them.
-/
namespace Sys2Proof.Tests

open Sys2Proof.Machine

/-! Helpers -/

/-- The next state of an outcome, if it is one. -/
def after? : Host.Outcome State Fault Refusal → Option State
  | .next t => some t
  | .fault _ => none
  | .refused _ => none

/-- The refusal of an outcome, if it is one. -/
def stop? : Host.Outcome State Fault Refusal → Option Refusal
  | .next _ => none
  | .fault _ => none
  | .refused r => some r

/-- What an instruction answers. -/
def answer (i : Instr) (s : State) : Option Response := (after? (exec i s)).bind State.rsp

/-- What a host call leaves on the bus. -/
def busOf (c : HostCall) (s : State) : Option (List Transaction) := (after? (perform c s)).map State.bus

/-- The number an instruction answers in an exact instance whose sense resistance is `r`. -/
def reading? (r : Rat) (i : Instr) : Option Response := answer i { State.reset with rsns := .exact r }

/-- The default parameters with one reserved address; its place is made up, as the spec gives none. -/
def benchParams : Params := { Params.default with reserved := [0x50] }

def bench : State := { State.reset with params := benchParams }

/-- The default parameters with another register map. -/
def mapped (m : RegMap) : Params := { Params.default with regmap := m }

/-- An instance in binary32 with `RSNS` = fl(0.02), 0x3CA3D70A. -/
def single : State :=
  { State.reset with
    rsns := .b32 0x3CA3D70A
    rsnsMho := .b32 0x42480000
    params := { Params.default with numFormat := .binary32 } }

/-! Decoding: words written out from spec/30_encoding.md R50, R54, R58 -/

theorem test_decode_conversions :
    decodeTableWord 24 0b00000000_01010110_01111000 = some (.xvolt 0x56 0x78) ∧
      decodeTableWord 24 0b00000001_01100000_00000000 = some (.rvolt 0x60 0x00) ∧
      decodeTableWord 24 0b00000010_00011001_00000000 = some (.xtemp 0x19 0x00) ∧
      decodeTableWord 24 0b00000011_00000000_01100100 = some (.xcurr 0x00 0x64) ∧
      decodeTableWord 24 0b00000100_11111111_00111000 = some (.xiavg 0xFF 0x38) := by decide

theorem test_decode_conversions_more :
    decodeTableWord 24 0b00000101_00010000_00000000 = some (.xacr 0x10 0x00) ∧
      decodeTableWord 24 0b00000110_00000000_00010000 = some (.xacrl 0x00 0x10) ∧
      decodeTableWord 24 0b00000111_10000000_11111111 = some (.xab 0x80 0xFF) ∧
      decodeTableWord 24 0b00001000_00000000_01100100 = some (.xacap 0x00 0x64) ∧
      decodeTableWord 24 0b00001001_00000000_01100100 = some (.xvsns 0x00 0x64) := by decide

theorem test_decode_decoders :
    decodeTableWord 24 0b00010000_00000001_00000000 = some (.dstat 0x01) ∧
      decodeTableWord 24 0b00010001_01000000_00000000 = some (.dctrl 0x40) ∧
      decodeTableWord 24 0b00010010_00000001_00000000 = some (.dsfr 0x01) ∧
      decodeTableWord 24 0b00010011_10000011_10101010 = some (.deep 0x83) := by decide

theorem test_decode_commands :
    decodeTableWord 8 0b01000010 = some .copy0 ∧ decodeTableWord 8 0b01000100 = some .copy1 ∧
      decodeTableWord 8 0b10110010 = some .recall0 ∧ decodeTableWord 8 0b10110100 = some .recall1 ∧
      decodeTableWord 8 0b01100011 = some .lock0 ∧ decodeTableWord 8 0b01100110 = some .lock1 := by decide

/-- Section 2.9: each refused code beside the nearest accepted one. -/
theorem test_decode_reserved :
    [0x090064, 0x0A0064, 0x0F0000, 0x100100, 0x130000, 0x140000, 0xFF0000, 0xFE4200].map
        (fun w => (decodeTableWord 24 w).isSome) = [true, false, false, true, true, false, false, false] ∧
      decode (.request 0x0A0064) = .error (.reservedOpsel 0x0A) ∧ decode (.command 0x43) = .error (.unknownCommand 0x43) := by
  decide

/-- spec/30_encoding.md R60: `XCURR 0x0064` encodes as 0x030064. -/
theorem test_encode : encode (.xcurr 0x00 0x64) = .request 0x030064 ∧ encode (.recall0) = .command 0xB2 := by decide

/-! Well-formed parameters, and one ill-formed term for each check -/

theorem test_params_admitted : Params.default.wellFormed = true ∧ benchParams.wellFormed = true := by decide

theorem test_status_pos_repeated_refused :
    { Params.default with statusPos := ⟨1, 1, 3, 7⟩ }.wellFormed = false := by decide

theorem test_status_pos_of_fixed_flag_refused :
    { Params.default with statusPos := ⟨0, 2, 3, 7⟩ }.wellFormed = false ∧
      { Params.default with statusPos := ⟨1, 2, 3, 6⟩ }.wellFormed = false := by decide

theorem test_field_table_repeats_refused :
    { Params.default with controlFields := [(.other "UVEN", 6), (.other "UVEN", 5)] }.wellFormed = false ∧
      { Params.default with sfrFields := [(.other "A", 0), (.other "B", 0)] }.wellFormed = false ∧
      { Params.default with eepromFields := [(.other "A", 0), (.other "B", 0)] }.wellFormed = false := by decide

theorem test_register_past_end_refused :
    (mapped { RegMap.default with temperature := ⟨0xFF, .b2, .r⟩ }).wellFormed = false := by decide

theorem test_register_over_command_refused :
    (mapped { RegMap.default with temperature := ⟨0xFD, .b2, .r⟩ }).wellFormed = false ∧
      (mapped { RegMap.default with others := [⟨0xFE, .b1, .w⟩] }).wellFormed = false := by decide

/-- spec/20_memory.md R34: voltage and current may not share an address, nor two parameters. -/
theorem test_alias_refused :
    (mapped { RegMap.default with current := ⟨0x0D, .b2, .r⟩ }).wellFormed = false ∧
      (mapped { RegMap.default with accumulationBias := ⟨0x60, .b1, .rw⟩ }).wellFormed = false := by decide

/-- spec/20_memory.md R33: a register is within the parameter block or apart from it. -/
theorem test_straddling_parameter_block_refused :
    (mapped { RegMap.default with userEeprom := ⟨0x58, .b16, .rw⟩ }).wellFormed = false := by decide

theorem test_fixed_parts_refused :
    (mapped { RegMap.default with status := ⟨0x18, .b2, .r⟩ }).wellFormed = false ∧
      (mapped { RegMap.default with control := ⟨0x18, .b1, .rw⟩ }).wellFormed = false ∧
      (mapped { RegMap.default with voltage := ⟨0x18, .b1, .r⟩ }).wellFormed = false ∧
      (mapped { RegMap.default with factoryGain := ⟨0x7B, .b2, .rw⟩ }).wellFormed = false := by decide

/-- spec/20_memory.md R46: the tunable parameters are read/write, what an accessor reads can be read. -/
theorem test_fixed_modes_refused :
    (mapped { RegMap.default with chargeVoltage := ⟨0x64, .b1, .r⟩ }).wellFormed = false ∧
      (mapped { RegMap.default with userEeprom := ⟨0x20, .b16, .w⟩ }).wellFormed = false ∧
      (mapped { RegMap.default with voltage := ⟨0x0C, .b2, .w⟩ }).wellFormed = false ∧
      (mapped { RegMap.default with activeRelativeCapacity := ⟨0x06, .b1, .w⟩ }).wellFormed = false := by decide

theorem test_fixed_widths_refused :
    (mapped { RegMap.default with activeRelativeCapacity := ⟨0x18, .b2, .r⟩ }).wellFormed = false ∧
      (mapped { RegMap.default with senseResistorGain := ⟨0x70, .b8, .rw⟩ }).wellFormed = false ∧
      (mapped { RegMap.default with userEeprom := ⟨0x20, .b1, .rw⟩ }).wellFormed = false := by decide

/-- spec/30_encoding.md R61: a word is not read from a one-byte register. -/
theorem test_reads_fit_refused :
    (mapped { RegMap.default with temperature := ⟨0x0A, .b1, .r⟩ }).wellFormed = false ∧
      { Params.default with
        tempFormat := ⟨.w8, true⟩
        regmap := { RegMap.default with temperature := ⟨0x0A, .b1, .r⟩ } }.wellFormed = true := by decide

theorem test_reserved_address_refused :
    { Params.default with reserved := [0xFE] }.wellFormed = false ∧
      { Params.default with reserved := [0x60] }.wellFormed = false ∧
      { benchParams with reserved := [0x0D] }.wellFormed = false := by decide

/-! The conversions -/

/-- S5a. -/
theorem test_xvolt_byte_order : reading? (1 / 50) (.xvolt 0x56 0x78) = some (.num (.exact (13835 / 4096))) := by
  decide +kernel

theorem test_xvolt_bottom : reading? (1 / 50) (.xvolt 0x80 0x00) = some (.num (.exact (-5))) := by decide +kernel

theorem test_rvolt_positive_word : reading? (1 / 50) (.rvolt 0x60 0x00) = some (.num (.exact (-15 / 4))) := by decide +kernel

theorem test_rvolt_bottom : reading? (1 / 50) (.rvolt 0x80 0x00) = some (.num (.exact 5)) := by decide +kernel

theorem test_xtemp_negative : reading? (1 / 50) (.xtemp 0xF6 0x00) = some (.num (.exact (-10))) := by decide +kernel

/-- S9, the source's scenario. -/
theorem test_xcurr_scenario : answer (.xcurr 0x00 0x64) State.reset = some (.num (.exact (125 / 16))) := by decide +kernel

/-- S9a: 7.8125 in binary32 with one rounding per operation. -/
theorem test_xcurr_binary32 : answer (.xcurr 0x00 0x64) single = some (.num (.b32 0x40FA0000)) := by decide +kernel

theorem test_xiavg_negative : reading? (1 / 50) (.xiavg 0xFF 0x38) = some (.num (.exact (-125 / 8))) := by decide +kernel

theorem test_xacr_unsigned : reading? (1 / 50) (.xacr 0xFF 0xFF) = some (.num (.exact (327675 / 16))) := by decide +kernel

theorem test_xacrl_reserved_bits : reading? (1 / 50) (.xacrl 0xFF 0xFF) = some (.num (.exact (327675 / 1048576))) := by
  decide +kernel

theorem test_xab_byte : reading? (1 / 50) (.xab 0x80 0xFF) = some (.num (.exact (-10))) := by decide +kernel

/-- R74: with a width of 16 the word is read, here 128 counts. -/
theorem test_xab_word :
    answer (.xab 0x00 0x80) { State.reset with params := { Params.default with abFormat := ⟨.w16, true⟩ } } =
      some (.num (.exact 10)) := by decide +kernel

/-- S8a, and the last row of section 2.6. -/
theorem test_xacap_any_resistor :
    reading? (1 / 50) (.xacap 0x00 0x64) = some (.num (.exact 160)) ∧
      reading? 5 (.xacap 0xFF 0xFF) = some (.num (.exact 104856)) := by decide +kernel

theorem test_xvsns_negative : reading? 5 (.xvsns 0xFF 0x38) = some (.num (.exact (-5 / 16))) := by decide +kernel

/-! The decoders -/

/-- Section 2.7, row 0xBE. -/
theorem test_dstat_row :
    answer (.dstat 0xBE) State.reset = some (.flags ⟨⟨true, false, true, true, true, true, true, false⟩,
      [(.chgtf, false), (.aef, true), (.sef, true), (.learnf, true), (.uvf, false), (.porf, true)]⟩) := by decide

theorem test_dctrl_unnamed :
    answer (.dctrl 0x70) State.reset = some (.flags ⟨⟨false, true, true, true, false, false, false, false⟩, []⟩) := by decide

theorem test_dctrl_named :
    answer (.dctrl 0x40) { State.reset with params := { Params.default with
      controlFields := [(.other "F", 6), (.other "G", 5)] } } =
      some (.flags ⟨⟨false, true, false, false, false, false, false, false⟩, [(.other "F", true), (.other "G", false)]⟩) := by
  decide

theorem test_dsfr_unnamed :
    answer (.dsfr 0xFE) State.reset = some (.flags ⟨⟨true, true, true, true, true, true, true, false⟩, []⟩) := by decide

theorem test_deep_unnamed :
    answer (.deep 0x83) State.reset = some (.flags ⟨⟨true, false, false, false, false, false, true, true⟩, []⟩) := by decide

/-! The function commands and the transaction protocol (section 2.10) -/

theorem test_copy_frames :
    busOf (.copyBlock 0) State.reset = some [[.start, .addrW 0x34, .regAddr 0xFE, .data 0x42, .stop]] ∧
      busOf (.copyBlock 1) State.reset = some [[.start, .addrW 0x34, .regAddr 0xFE, .data 0x44, .stop]] := by decide

theorem test_recall_frames :
    busOf (.recallBlock 0) State.reset = some [[.start, .addrW 0x34, .regAddr 0xFE, .data 0xB2, .stop]] ∧
      busOf (.recallBlock 1) State.reset = some [[.start, .addrW 0x34, .regAddr 0xFE, .data 0xB4, .stop]] := by decide

theorem test_lock_frames :
    busOf (.lockBlock 0) State.reset = some [[.start, .addrW 0x34, .regAddr 0xFE, .data 0x63, .stop]] ∧
      busOf (.lockBlock 1) State.reset = some [[.start, .addrW 0x34, .regAddr 0xFE, .data 0x66, .stop]] := by decide

theorem test_bad_block_index :
    busOf (.copyBlock 2) State.reset = some [] ∧ busOf (.recallBlock 2) State.reset = some [] ∧
      busOf (.copyBlock (-1)) State.reset = some [] ∧ busOf (.lockBlock 255) State.reset = some [] := by decide

theorem test_write_word_frame :
    busOf (.writeWord 0x10 0x1234) bench = some [[.start, .addrW 0x34, .regAddr 0x10, .data 0x12, .data 0x34, .stop]] := by
  decide

theorem test_read_word :
    (after? (perform (.readWord 0x10) { bench with mem := [(0x10, 0x56), (0x11, 0x78)] })).map (fun t => (t.ret, t.bus)) =
      some (some (.word 0x5678), [[.start, .addrW 0x34, .regAddr 0x10, .phaseEnd .stop, .start, .addrR 0x34, .data 0x56,
        .data 0x78, .stop]]) := by decide

theorem test_stops :
    stop? (perform (.readWord 0xFF) bench) = some .wordPastEnd ∧
      stop? (perform (.readByte 0xFE) bench) = some (.readOfWriteOnly 0xFE) ∧
      stop? (perform (.readByte 0x50) bench) = some (.reservedAddress 0x50) ∧
      stop? (perform (.writeByte 0x0C 0) bench) = some (.writeOfReadOnly 0x0C) ∧
      stop? (perform (.writeByte 0xFE 0x43) bench) = some (.unknownCommand 0x43) ∧
      stop? (perform (.writeWord 0xFD 0x0043) bench) = some (.unknownCommand 0x43) ∧
      stop? (perform (.readWord 0x4F) bench) = some (.reservedAddress 0x50) := by decide

/-- R43, R39: a word write may start at 0xFD; its second byte is a command. -/
theorem test_word_write_over_command :
    (after? (perform (.writeWord 0xFD 0x9942) { bench with mem := [(0x10, 0x56)] })).map
        (fun t => (t.bus, t.mem, t.chipUnsettled)) =
      some ([[.start, .addrW 0x34, .regAddr 0xFD, .data 0x99, .data 0x42, .stop]], [], true) ∧
    busOf (.writeWord 0xFE 0xB200) bench = some [[.start, .addrW 0x34, .regAddr 0xFE, .data 0xB2, .data 0x00, .stop]] := by
  decide

/-- spec/70_reset_and_hazards.md R131: what is written after a recall is not known to stay. -/
theorem test_write_after_command :
    (after? (perform (.writeWord 0x10 0x1234) { bench with chipUnsettled := true })).map State.mem = some [] ∧
      (after? (perform (.recallBlock 1) bench)).map State.chipUnsettled = some true := by decide

theorem test_wide_register :
    stop? (perform (.readRegister .userEeprom) bench) = some (.noPrimitive .b16) ∧
      busOf (.writeRegisterAt .userEeprom .w16 14 0xABCD) bench =
        some [[.start, .addrW 0x34, .regAddr 0x2E, .data 0xAB, .data 0xCD, .stop]] ∧
      stop? (perform (.readRegisterAt .userEeprom .w16 15) bench) = some (.pastEndOfRegister .userEeprom 15) := by decide

/-- spec/20_memory.md R46: factory gain is read-only by its name, whatever the general view of its address allows. -/
theorem test_factory_gain_read_only :
    stop? (perform (.writeRegister .factoryGain 0x0400) bench) = some (.writeOfReadOnly 0x7B) ∧
      (busOf (.readRegister .factoryGain) bench).map List.length = some 1 ∧
      stop? (perform (.readRegister .functionCommand) bench) = some (.readOfWriteOnly 0xFE) := by decide

/-- S9, P1: the chip's current register holds 0x0064; `readCurrent()` is 7.8125 mA. -/
theorem test_current_reading :
    (after? (perform (.reading .current) { State.reset with mem := [(0x0E, 0x00), (0x0F, 0x64)] })).map
        (fun t => (t.rsp, t.bus.length)) = some (some (.num (.exact (125 / 16))), 1) := by decide +kernel

/-- P2, steps 1 and 2: a voltage word 0x6000 reads as -3.75 V, with one transaction. -/
theorem test_voltage_reading :
    (after? (perform (.reading .voltage) { bench with mem := [(0x0C, 0x60), (0x0D, 0x00)] })).map
        (fun t => (t.rsp, t.bus.length)) = some (some (.num (.exact (-15 / 4))), 1) := by decide +kernel

/-- P4, step 2: a reserved request is answered `VALID = 0`. -/
theorem test_reserved_request :
    (after? (perform (.request 0x0A0064) State.reset)).map State.rsp = some (some .invalid) := by decide

/-- P1: a step from reset with the current request presented. -/
theorem test_step : ((after? (step (State.reset.withFetchWord 24 0x030064))).bind State.rsp) =
    some (.num (.exact (125 / 16))) := by decide +kernel

/-! Operands (section 2.1) -/

theorem test_operand_rows :
    [rawValue ⟨.w16, true⟩ 0x80 0x00, rawValue ⟨.w16, false⟩ 0x80 0x00, rawValue ⟨.w16, true⟩ 0xFF 0x38,
      rawValue ⟨.w16, false⟩ 0xFF 0x38, rawValue ⟨.w8, true⟩ 0x80 0x00, rawValue ⟨.w8, false⟩ 0xFF 0x00] =
    [-32768, 32768, -200, 65336, -128, 255] := by decide

/-! A witness for each statement with hypotheses -/

theorem test_witness_decode_of_encode : (Instr.xab 0xFF 0x00).wellFormed = true := by decide

theorem test_witness_encode_of_decode :
    decodeRequest 0x1383AA = .ok (.deep 0x83) ∧ decodeRequest 0x09FF38 = .ok (.xvsns 0xFF 0x38) ∧
      (opselOf 0x09FF38).toNat ≤ 0x09 := by decide

theorem test_witness_reserved_request :
    (opselOf 0x0A0064).toNat = 0x0A ∧ (opselOf 0x0F0000).toNat = 0x0F ∧ (opselOf 0x140000).toNat = 0x14 ∧
      (opselOf 0xFF0000).toNat = 0xFF := by decide

/-- Every quantity of the second clause can have a byte format; AB has one by default. -/
theorem test_witness_ignored_byte :
    decodeRequest (requestWord 0x00 0 0) = .ok (.xvolt 0 0) ∧ decodeRequest (requestWord 0x13 0 0) = .ok (.deep 0) ∧
    (State.reset.params.format .ab).width = .w8 ∧
      ∀ q ∈ [Quantity.temp, .curr, .iavg, .acr, .acrl, .ab, .acap, .vsns],
        (Params.format { Params.default with
          tempFormat := ⟨.w8, true⟩, currFormat := ⟨.w8, true⟩, iavgFormat := ⟨.w8, true⟩, acrFormat := ⟨.w8, true⟩,
          acrlFormat := ⟨.w8, true⟩, acapFormat := ⟨.w8, true⟩, vsnsFormat := ⟨.w8, true⟩ } q).width = .w8 := by decide

theorem test_witness_exact_quotient : (1 / 50 : Rat) ≠ 0 := by decide +kernel

theorem test_witness_rounding_nearest :
    (0 : Rat) ≤ 1 / 3 ∧ binary32.datum (binary32.roundMagnitude (1 / 3)) = .fin false (11184811 / 33554432) ∧
      binary32.datum 0x3F800000 = .fin false 1 := by decide +kernel

/-- A tie: 2^24 + 1 lies half way between 2^24 and 2^24 + 2. -/
theorem test_witness_rounding_tie :
    binary32.datum (binary32.roundMagnitude 16777217) = .fin false 16777216 ∧
      binary32.datum 0x4B800001 = .fin false 16777218 := by decide +kernel

/-- Both sides of the bound of each format. -/
theorem test_witness_rounding_overflow :
    binary32.datum (binary32.roundMagnitude (2 ^ 128 - 2 ^ 103)) = .inf false ∧
      binary32.datum (binary32.roundMagnitude (2 ^ 128 - 2 ^ 103 - 1)) = .fin false (2 ^ 128 - 2 ^ 104) ∧
      binary64.datum (binary64.roundMagnitude (2 ^ 1024 - 2 ^ 970)) = .inf false := by decide +kernel

theorem test_witness_odd_additive :
    (-32768 : Int) ≠ 0 ∧ (NumVal.ofRat single.params.numFormat (single.params.factor .acr)).value?.isSome = true ∧
      (-65535 : Int).natAbs ≤ 65535 ∧ State.reset.params.numFormat = .exact ∧
      NumVal.admissible .exact State.reset.rsns = true := by decide +kernel

theorem test_witness_no_nan :
    NumVal.admissible single.params.numFormat single.rsns = true ∧
      (NumVal.ofRat single.params.numFormat (single.params.factor .acr)).value?.isSome = true ∧
      (convert? single .acr (operandOf single .acr 0xFF 0xFF)).isSome = true := by decide +kernel

theorem test_witness_current_family :
    NumVal.admissible State.reset.params.numFormat State.reset.rsns = true ∧
      NumVal.admissible single.params.numFormat single.rsns = true := by decide +kernel

theorem test_witness_current_exact :
    State.reset.params.numFormat = .exact ∧ State.reset.rsns = .exact (1 / 50) ∧ (1 / 50 : Rat) ≠ 0 := by decide +kernel

theorem test_witness_sense_not_admitted :
    NumVal.admissible .exact (.exact 0) = false ∧
      NumVal.admissible State.reset.params.numFormat { State.reset with rsns := .exact 0 }.rsns = false ∧
      NumVal.admissible .binary32 (.b32 0x7F800000) = false ∧ NumVal.admissible .binary32 (.b32 0x7FC00000) = false := by
  decide +kernel

theorem test_witness_current_is_sense_voltage :
    NumVal.admissible single.params.numFormat single.rsns = true ∧ single.params.currFormat = single.params.vsnsFormat := by
  decide +kernel

theorem test_witness_status_pos : State.reset.params.statusPos.wellFormed = true := by decide

theorem test_witness_reserved_bits :
    ∀ f ∈ Params.default.statusFields, (0x00 : Byte).getLsbD f.2 = (0x30 : Byte).getLsbD f.2 := by decide

theorem test_witness_bad_index : (2 : Int) ≠ 0 ∧ (2 : Int) ≠ 1 ∧ (-1 : Int) ≠ 0 ∧ (-1 : Int) ≠ 1 := by decide

theorem test_witness_command_byte :
    decodeCommand 0x66 = .ok .lock1 ∧ ∀ i, decodeCommand 0x67 ≠ .ok i :=
  ⟨rfl, fun _ => nofun⟩

theorem test_witness_word_write :
    landingRefusal? bench.params 0x10 0x12 = none ∧ landingRefusal? bench.params 0x11 0x34 = none ∧
      landingRefusal? bench.params 0xFC 0x12 = none ∧ landingRefusal? bench.params 0xFD 0x34 = none ∧
      landingRefusal? bench.params 0xFE 0x42 = none ∧ landingRefusal? bench.params 0xFF 0x34 = none := by decide

/-- Bytes at 0xFD and 0xFE that a word write is refused for. -/
theorem test_witness_word_write_refused :
    writeRefusal? bench.params 0xFD = none ∧ ∀ i, decodeCommand (BitVec.extractLsb' 8 8 (0x4300 : Word16)) ≠ .ok i :=
  ⟨by decide, fun _ => nofun⟩

theorem test_witness_access_modes :
    0xFE ∉ bench.params.reserved ∧ (0x0C : Byte) ∉ bench.params.reserved ∧
      (∃ e ∈ bench.params.regmap.entries, e.covers 0x0C = true) ∧
      (∀ e ∈ bench.params.regmap.entries, e.covers 0x0C = true → e.access = .r) ∧
      (∃ e ∈ bench.params.regmap.entries, e.covers 0xFE = true) ∧
      ∀ e ∈ bench.params.regmap.entries, e.covers 0xFE = true → e.access = .w := by decide

theorem test_witness_byte_write :
    (0xFF : Byte) ≠ 0xFE ∧ writeRefusal? bench.params 0xFF = none ∧ (0x00 : Byte) ≠ 0xFE ∧
      writeRefusal? bench.params 0x00 = none := by decide

theorem test_witness_word_read :
    (0xFC : Byte) ≠ 0xFF ∧ readRefusal? bench.params 0xFC = none ∧ readRefusal? bench.params 0xFD = none := by decide

theorem test_witness_byte_read : readRefusal? bench.params 0xFF = none ∧ readRefusal? bench.params 0x00 = none := by decide

theorem test_witness_read_back :
    (0x10 : Byte) ≠ 0xFF ∧ bench.chipUnsettled = false ∧ (commandSent 0xB2 bench).chipUnsettled = true ∧
      (commandSent 0xB2 bench).mem = [] ∧
      ∀ b ∈ [0x10, 0x11], isReserved bench.params b = false ∧ chipAccess bench.params b .rw = true := by decide

theorem test_witness_unknown_byte :
    readRefusal? bench.params 0x10 = none ∧ Memory.get? bench.mem 0x10 = none := by decide

theorem test_witness_reserved_address : (0x50 : Byte) ∈ bench.params.reserved ∧ (0x50 : Byte) ≠ 0xFE := by decide

/-- Each of the four protocol calls answers. -/
theorem test_witness_one_transaction :
    ∀ c ∈ [HostCall.readByte 0x10, .readWord 0x10, .writeByte 0x10 0xA5, .writeWord 0x10 0x1234],
      ((after? (perform c bench)).map fun t => t.bus.length) = some 1 := by
  intro c hc
  simp only [List.mem_cons, List.not_mem_nil, or_false] at hc
  rcases hc with rfl | rfl | rfl | rfl <;> rfl

theorem test_witness_voltage_accessor :
    bench.params.regmap.entry .voltage = ⟨0x0C, .b2, .r⟩ ∧ (0x0C : Byte) ≠ 0xFF ∧
      readRefusal? bench.params 0x0C = none ∧ readRefusal? bench.params 0x0D = none := by decide

/-- Each accessor's register can be read, as a word or as a byte. -/
theorem test_witness_accessors :
    ∀ n ∈ [RegName.voltage, .current, .temperature, .activeAbsoluteCapacity, .standbyAbsoluteCapacity],
      (bench.params.regmap.entry n).access ≠ .w ∧
        (after? (perform (.readWord (bench.params.regmap.entry n).addr) bench)).isSome = true ∧
        (after? (perform (.readByte (bench.params.regmap.entry n).addr) bench)).isSome = true := by decide

/-- The ends of a wide register, a register of each access mode, and one of each width the whole of which has a primitive. -/
theorem test_witness_registers_by_name :
    15 + 1 ≤ (bench.params.regmap.entry .userEeprom).width.bytes ∧
      14 + 2 ≤ (bench.params.regmap.entry .userEeprom).width.bytes ∧
      (bench.params.regmap.entry .userEeprom).access = .rw ∧ (bench.params.regmap.entry .factoryGain).access = .r ∧
      (bench.params.regmap.entry .functionCommand).access = .w ∧ (bench.params.regmap.entry .control).width = .b1 ∧
      (bench.params.regmap.entry .voltage).width = .b2 := by decide

theorem test_witness_accessors_answer :
    bench.params.wellFormed = true ∧ NumVal.admissible bench.params.numFormat bench.rsns = true ∧
      14 + 2 ≤ (bench.params.regmap.entry .userEeprom).width.bytes := by decide +kernel

/-- The codes at the ends of each range of the statement. -/
theorem test_witness_every_request :
    [0x000000, 0x090000, 0x0A0000, 0x0F0000, 0x100000, 0x130000, 0x140000, 0xFF0000].map (fun r => (opselOf r).toNat) =
      [0x00, 0x09, 0x0A, 0x0F, 0x10, 0x13, 0x14, 0xFF] := by decide

theorem test_witness_same_config : bench.sameConfig { bench with mem := [(0x10, 0xFF)], draws := 3 } := ⟨rfl, rfl, rfl, rfl⟩

theorem test_witness_request_order :
    (after? (perform (.request 0x0A0064) State.reset)).isSome = true ∧
      (after? (perform (.request 0x080064) State.reset)).isSome = true := by decide +kernel

/-- An instance with a register map, a held byte and a pending call, that meets the invariant and steps. -/
def running : State := { bench with mem := [(0x10, 0x56)], inputs := [.writeWord 0x10 0x1234, .request 0x030064] }

theorem test_witness_invariant : running.Inv :=
  ⟨by decide, by decide, by decide +kernel, by decide, by decide, by decide⟩

theorem test_witness_step :
    (after? (step running)).map State.mem = some [(0x10, 0x12), (0x11, 0x34)] ∧ Memory.wf running.mem := by decide

theorem test_witness_cached_reciprocal : running.params.numFormat = .exact := by decide

theorem test_witness_construction :
    Params.default.wellFormed = true ∧ NumVal.admissible Params.default.numFormat (.exact (-1 / 50)) = true ∧
      NumVal.admissible Params.default.numFormat (.exact 0) = false ∧
      (mapped { RegMap.default with voltage := ⟨0xFF, .b2, .r⟩ }).wellFormed = false := by decide +kernel

theorem test_witness_constructed : ∃ s, construct 0x34 (.exact 5) benchParams = .next s := ⟨_, rfl⟩

theorem test_witness_step_decoded :
    { State.reset with inputs := [HostCall.request 0x010000] }.inputs = callOf (.request 0x010000) :: [] ∧
      decode (.request 0x010000) = .ok (.rvolt 0x00 0x00) ∧ callOf (.command 0x63) = .writeByte 0xFE 0x63 ∧
      decode (.command 0x63) = .ok .lock0 := by decide

theorem test_witness_fetch_word :
    decodeTableWord 24 0x130000 = some (.deep 0x00) ∧ decodeTableWord 8 0x66 = some .lock1 := by decide

theorem test_witness_idle : State.reset.inputs = [] := rfl

end Sys2Proof.Tests
end

section
/-!
PROOF. The configuration of the block (spec/10_state.md R11): each operation leaves it as it was, so every host call and
every step does.
-/
namespace Sys2Proof.Machine

variable {s t u : State}

theorem State.sameConfig.trans (h₁ : t.sameConfig u) (h₂ : u.sameConfig s) : t.sameConfig s := by
  obtain ⟨hrsns, hmho, hparams, haddr⟩ := h₁
  obtain ⟨hrsns', hmho', hparams', haddr'⟩ := h₂
  exact ⟨hrsns.trans hrsns', hmho.trans hmho', hparams.trans hparams', haddr.trans haddr'⟩

theorem State.returning_sameConfig (s : State) (v : Option RawValue) : (s.returning v).sameConfig s := ⟨rfl, rfl, rfl, rfl⟩

theorem exec_sameConfig {i : Instr} (h : exec i s = .next t) : t.sameConfig s := by
  obtain ⟨r, -, rfl⟩ | ⟨cmd, rfl⟩ := exec_next h
  · exact ⟨rfl, rfl, rfl, rfl⟩
  · exact ⟨rfl, rfl, rfl, rfl⟩

theorem request_sameConfig {req : RequestWord} (h : request req s = .next t) : t.sameConfig s := by
  obtain ⟨r, rfl⟩ := request_next h
  exact ⟨rfl, rfl, rfl, rfl⟩

theorem busRead_sameConfig {w : RawWidth} {a : Byte} {v : RawValue} (h : busRead w a s = .ok (v, t)) : t.sameConfig s := by
  obtain ⟨data, n, rfl⟩ := busRead_ok h
  exact ⟨rfl, rfl, rfl, rfl⟩

theorem protocolRead_sameConfig {w : RawWidth} {a : Byte} (h : protocolRead w a s = .next t) : t.sameConfig s := by
  obtain ⟨v, u, hread, rfl⟩ := protocolRead_next h
  exact (u.returning_sameConfig (some v)).trans (busRead_sameConfig hread)

theorem protocolWriteByte_sameConfig {a v : Byte} (h : protocolWriteByte a v s = .next t) : t.sameConfig s := by
  obtain ⟨-, rfl⟩ | ⟨-, -, rfl⟩ := protocolWriteByte_next h
  · exact ⟨rfl, rfl, rfl, rfl⟩
  · exact ⟨rfl, rfl, rfl, rfl⟩

theorem protocolWriteWord_sameConfig {a : Byte} {v : Word16} (h : protocolWriteWord a v s = .next t) : t.sameConfig s := by
  obtain ⟨-, -, -, rfl⟩ := protocolWriteWord_next h
  exact ⟨rfl, rfl, rfl, rfl⟩

theorem blockCommand_sameConfig {n : Int} {i0 i1 : Instr} (h : blockCommand n i0 i1 s = .next t) : t.sameConfig s := by
  obtain ⟨-, h0⟩ | ⟨-, h1⟩ | ⟨-, -, rfl⟩ := blockCommand_next h
  · exact exec_sameConfig h0
  · exact exec_sameConfig h1
  · exact s.returning_sameConfig none

/-- The read and the request of an accessor each keep the configuration (spec/30_encoding.md R61). -/
theorem reading_sameConfig {r : Reading} (h : reading r s = .next t) : t.sameConfig s := by
  obtain ⟨v, u, hread, hexec⟩ := reading_next h
  have hrequest : t.sameConfig (u.returning (some v)) := exec_sameConfig hexec
  have hreturn : (u.returning (some v)).sameConfig s :=
    (u.returning_sameConfig (some v)).trans (busRead_sameConfig hread)
  exact hrequest.trans hreturn

theorem readRegisterAt_sameConfig {name : RegName} {w : RawWidth} {offset : Nat}
    (h : readRegisterAt name w offset s = .next t) : t.sameConfig s :=
  protocolRead_sameConfig (readRegisterAt_next h)

theorem writeRegisterAt_sameConfig {name : RegName} {w : RawWidth} {offset : Nat} {v : Word16}
    (h : writeRegisterAt name w offset v s = .next t) : t.sameConfig s :=
  (writeRegisterAt_next h).elim protocolWriteByte_sameConfig protocolWriteWord_sameConfig

theorem readRegister_sameConfig {name : RegName} (h : readRegister name s = .next t) : t.sameConfig s := by
  obtain ⟨w, hread⟩ := readRegister_next h
  exact readRegisterAt_sameConfig hread

theorem writeRegister_sameConfig {name : RegName} {v : Word16} (h : writeRegister name v s = .next t) :
    t.sameConfig s := by
  obtain ⟨w, hwrite⟩ := writeRegister_next h
  exact writeRegisterAt_sameConfig hwrite

/-- R5 for a single host call, the chip's own changes among them. -/
theorem perform_sameConfig {c : HostCall} (h : perform c s = .next t) : t.sameConfig s := by
  cases c with
  | request req => exact request_sameConfig h
  | readByte a => exact protocolRead_sameConfig h
  | readWord a => exact protocolRead_sameConfig h
  | writeByte a v => exact protocolWriteByte_sameConfig h
  | writeWord a v => exact protocolWriteWord_sameConfig h
  | copyBlock n => exact blockCommand_sameConfig h
  | recallBlock n => exact blockCommand_sameConfig h
  | lockBlock n => exact blockCommand_sameConfig h
  | reading r => exact reading_sameConfig h
  | readRegister name => exact readRegister_sameConfig h
  | writeRegister name v => exact writeRegister_sameConfig h
  | readRegisterAt name width offset => exact readRegisterAt_sameConfig h
  | writeRegisterAt name width offset v => exact writeRegisterAt_sameConfig h
  | chipUpdate a =>
    cases h
    exact ⟨rfl, rfl, rfl, rfl⟩

/-- If a step answers, no call was pending and nothing happened, or it took the next call and that call answered. -/
theorem step_next (h : step s = .next t) :
    (s.inputs = [] ∧ t = s) ∨ ∃ c rest, s.inputs = c :: rest ∧ perform c { s with inputs := rest } = .next t := by
  unfold step at h
  split at h
  · cases h
    exact .inl ⟨‹_›, rfl⟩
  · exact .inr ⟨_, _, ‹_›, h⟩

/-- Settles O49: taking a call off the host's list leaves the configuration, and so does whichever call it is. -/
theorem stepKeepsConfiguration : Obligations.StepKeepsConfiguration := by
  intro s t h
  obtain ⟨-, rfl⟩ | ⟨c, rest, -, hcall⟩ := step_next h
  · exact ⟨rfl, rfl, rfl, rfl⟩
  · have htaken : State.sameConfig { s with inputs := rest } s := ⟨rfl, rfl, rfl, rfl⟩
    exact (perform_sameConfig hcall).trans htaken

end Sys2Proof.Machine
end

section
/-!
PROOF. Reserved addresses (spec/20_memory.md R32): every access asks for the refusal of each address it touches, and a
reserved address refuses every one.
-/
namespace Sys2Proof.Machine

variable {s t : State} {p : Params} {a : Byte}

theorem isReserved_of_mem (h : a ∈ p.reserved) : isReserved p a.toNat = true :=
  List.any_eq_true.mpr ⟨a, h, beq_self_eq_true _⟩

theorem readRefusal?_reserved (h : a ∈ p.reserved) : readRefusal? p a.toNat = some (.reservedAddress a.toNat) :=
  if_pos (isReserved_of_mem h)

theorem writeRefusal?_reserved (h : a ∈ p.reserved) : writeRefusal? p a.toNat = some (.reservedAddress a.toNat) :=
  if_pos (isReserved_of_mem h)

theorem landingRefusal?_reserved (h : a ∈ p.reserved) (hne : a ≠ 0xFE) (b : Byte) :
    landingRefusal? p a.toNat b = some (.reservedAddress a.toNat) := by
  have hnat : a.toNat ≠ 0xFE := fun he => hne (BitVec.eq_of_toNat_eq he)
  rw [landingRefusal?, if_neg hnat, writeRefusal?_reserved h]

/-- A byte read is refused as its address is. -/
theorem protocolRead_byte_refused {r : Refusal} (h : readRefusal? s.params a.toNat = some r) :
    protocolRead .w8 a s = .refused r := by
  simp only [protocolRead, busRead, h]

/-- A byte write is refused as its address is, unless the byte is a function command. -/
theorem protocolWriteByte_refused {r : Refusal} (hne : a ≠ 0xFE) (h : writeRefusal? s.params a.toNat = some r) (v : Byte) :
    protocolWriteByte a v s = .refused r := by
  rw [protocolWriteByte, if_neg hne, h]

/-- If a word read answers, neither of the two addresses it reads was refused. -/
theorem protocolRead_word_next (h : protocolRead .w16 a s = .next t) :
    a ≠ 0xFF ∧ readRefusal? s.params a.toNat = none ∧ readRefusal? s.params (a.toNat + 1) = none := by
  obtain ⟨v, u, hread, -⟩ := protocolRead_next h
  simp only [busRead] at hread
  split at hread
  · cases hread
  · split at hread
    · cases hread
    · cases hread
    · exact ⟨‹_›, ‹_›, ‹_›⟩

/-- The second byte of a word at the address before `a` is at `a`; a word at 0xFF, the address before 0, is no access (R43). -/
theorem toNat_pred_add_one (h : a - 1 ≠ 0xFF) : (a - 1).toNat + 1 = a.toNat := by
  bv_omega

/-- A word read does not answer when its first address is reserved. -/
theorem readWord_reserved_first (h : a ∈ s.params.reserved) : protocolRead .w16 a s ≠ .next t := by
  intro hnext
  obtain ⟨-, hfirst, -⟩ := protocolRead_word_next hnext
  rw [readRefusal?_reserved h] at hfirst
  cases hfirst

/-- A word read does not answer when its second address is reserved. -/
theorem readWord_reserved_second (h : a ∈ s.params.reserved) : protocolRead .w16 (a - 1) s ≠ .next t := by
  intro hnext
  obtain ⟨hlast, -, hsecond⟩ := protocolRead_word_next hnext
  rw [toNat_pred_add_one hlast, readRefusal?_reserved h] at hsecond
  cases hsecond

/-- A word write does not answer when its first byte would land at a reserved address. -/
theorem writeWord_reserved_first (h : a ∈ s.params.reserved) (hne : a ≠ 0xFE) (w : Word16) :
    protocolWriteWord a w s ≠ .next t := by
  intro hnext
  obtain ⟨-, hfirst, -, -⟩ := protocolWriteWord_next hnext
  rw [landingRefusal?_reserved h hne] at hfirst
  cases hfirst

/-- A word write does not answer when its second byte would land at a reserved address. -/
theorem writeWord_reserved_second (h : a ∈ s.params.reserved) (hne : a ≠ 0xFE) (w : Word16) :
    protocolWriteWord (a - 1) w s ≠ .next t := by
  intro hnext
  obtain ⟨hlast, -, hsecond, -⟩ := protocolWriteWord_next hnext
  rw [toNat_pred_add_one hlast, landingRefusal?_reserved h hne] at hsecond
  cases hsecond

/-- Settles O43: the refusal of the reserved byte stops a byte access by name, and a word access on either side of it. -/
theorem reservedAddressIsRefused : Obligations.ReservedAddressIsRefused := by
  intro s a v w h hne
  refine ⟨protocolRead_byte_refused (readRefusal?_reserved h),
    protocolWriteByte_refused hne (writeRefusal?_reserved h) v, fun c hc t => ?_⟩
  simp only [List.mem_cons, List.not_mem_nil, or_false] at hc
  obtain rfl | rfl | rfl | rfl := hc
  · exact readWord_reserved_first h
  · exact writeWord_reserved_first h hne w
  · exact readWord_reserved_second h
  · exact writeWord_reserved_second h hne w

end Sys2Proof.Machine
end

section
/-!
PROOF. The operand bytes and the reserved codes of a request (spec/30_encoding.md R51, R55).
-/
namespace Sys2Proof

/-- R51: the operand bytes of a request, assembled, are its low 16 bits. -/
theorem raw16_data1Of_data2Of (req : RequestWord) : raw16 (data1Of req) (data2Of req) = req.extractLsb' 0 16 :=
  BitVec.extractLsb'_append_extractLsb'_eq_extractLsb' rfl

/-- R55: the codes the operation map leaves out are refused by name. -/
theorem decodeRequest_reserved {req : RequestWord}
    (h : 0x0A ≤ (opselOf req).toNat ∧ (opselOf req).toNat ≤ 0x0F ∨ 0x14 ≤ (opselOf req).toNat) :
    decodeRequest req = .error (.reservedOpsel (opselOf req)) := by
  unfold decodeRequest
  split
  case h_15 => rfl
  all_goals omega

/-- Settles O8, by the place value of the first byte and the adjacency of the two fields in the request. -/
theorem wordOperandIsBigEndian : Obligations.WordOperandIsBigEndian :=
  ⟨raw16_toNat, raw16_data1Of_data2Of, rfl⟩

namespace Machine

/-- R111: a request that does not decode is answered `VALID = 0`. -/
theorem request_of_decode_error {req : RequestWord} {e : DecodeError} (h : decodeRequest req = .error e) (s : State) :
    request req s = .next (refuseRequest s) := by
  simp only [request, decode, h]

/-- Settles O6: a reserved code does not decode, and the answer to a word that does not decode drives the port alone. -/
theorem reservedRequestAnsweredInvalid : Obligations.ReservedRequestAnsweredInvalid := by
  intro s req hcode
  have hdecode := decodeRequest_reserved hcode
  exact ⟨hdecode, request_of_decode_error hdecode s⟩

end Machine

end Sys2Proof
end

section
/-!
PROOF. What the ten conversions answer (spec/40_conversion.md R65, R67 to R76, R79). The two laws they follow turn on the
division column of spec/10_state.md R18: an undivided quantity answers in every state, a divided one by an admitted `RSNS`.
-/
namespace Sys2Proof.Machine

section Conversion

variable {s : State} {q : Quantity} (d1 d2 : Byte)

/-- R67: the voltage operand is the signed word, for every choice of the OPEN formats. -/
theorem operandOf_volt : operandOf s .volt d1 d2 = (raw16 d1 d2).toInt := sextInt_eq_toInt _

/-- R65 without its division: a value in every state, and nothing but the response changes. -/
theorem conversion_undivided (h : q.divByRsns = false) :
    conversion q d1 d2 s = .next (s.respond (.num (transfer s.params q (operandOf s q d1 d2)))) :=
  conversion_of_some (convert?_undivided h _)

theorem negatedConversion_undivided (h : q.divByRsns = false) :
    negatedConversion q d1 d2 s = .next (s.respond (.num (transfer s.params q (operandOf s q d1 d2)).neg)) :=
  negatedConversion_of_some (convert?_undivided h _)

/-- R65 with its division: the quotient by an admitted sense resistance exists, and it is the answer. -/
theorem conversion_divided (h : q.divByRsns = true) (hr : NumVal.admissible s.params.numFormat s.rsns = true) :
    ∃ v, (transfer s.params q (operandOf s q d1 d2)).quotient? s.rsns = some v ∧
      conversion q d1 d2 s = .next (s.respond (.num v)) := by
  obtain ⟨v, hv⟩ := Option.isSome_iff_exists.mp (convert?_isSome hr q (operandOf s q d1 d2))
  exact ⟨v, (convert?_divided h _).symm.trans hv, conversion_of_some hv⟩

/-- R79: neither the transfer of an undivided quantity nor its operand reads the sense resistance. -/
theorem conversion_undivided_ignores_sense (h : q.divByRsns = false) (r m : NumVal) :
    ∃ x, conversion q d1 d2 s = .next (s.respond x) ∧
      conversion q d1 d2 { s with rsns := r, rsnsMho := m } = .next { s with rsns := r, rsnsMho := m, rsp := some x } :=
  ⟨_, conversion_undivided d1 d2 h, conversion_undivided d1 d2 h⟩

theorem negatedConversion_undivided_ignores_sense (h : q.divByRsns = false) (r m : NumVal) :
    ∃ x, negatedConversion q d1 d2 s = .next (s.respond x) ∧
      negatedConversion q d1 d2 { s with rsns := r, rsnsMho := m } =
        .next { s with rsns := r, rsnsMho := m, rsp := some x } :=
  ⟨_, negatedConversion_undivided d1 d2 h, negatedConversion_undivided d1 d2 h⟩

end Conversion

/-- Settles O21: each of the five is the conversion of a quantity that is divided by `RSNS`. -/
theorem currentFamilyResults : Obligations.CurrentFamilyResults := by
  intro s d1 d2 hr
  simp only [List.forall_mem_cons, exec_xcurr, exec_xiavg, exec_xacr, exec_xacrl, exec_xab]
  have hdivided (q : Quantity) (h : q.divByRsns = true) := conversion_divided d1 d2 h hr
  exact ⟨hdivided .curr rfl, hdivided .iavg rfl, hdivided .acr rfl, hdivided .acrl rfl, hdivided .ab rfl,
    List.forall_mem_nil _⟩

/-- Settles O25: each of the five is the conversion, RVOLT the negated one, of a quantity that is not divided. -/
theorem undividedConversionsIgnoreSense : Obligations.UndividedConversionsIgnoreSense := by
  intro s r m d1 d2
  simp only [List.forall_mem_cons, exec_xvolt, exec_rvolt, exec_xtemp, exec_xacap, exec_xvsns]
  have hignores (q : Quantity) (h : q.divByRsns = false) := conversion_undivided_ignores_sense (s := s) d1 d2 h r m
  exact ⟨hignores .volt rfl, negatedConversion_undivided_ignores_sense d1 d2 rfl r m, hignores .temp rfl,
    hignores .acap rfl, hignores .vsns rfl, List.forall_mem_nil _⟩

/-- Settles O18: voltage is not divided, and its operand is the signed word. -/
theorem voltageTransferResult : Obligations.VoltageTransferResult := by
  intro s d1 d2
  rw [exec_xvolt, conversion_undivided d1 d2 rfl, operandOf_volt]
  rfl

/-- Settles O19: the answer of O18, negated. -/
theorem voltageReadingResult : Obligations.VoltageReadingResult := by
  intro s d1 d2
  rw [exec_rvolt, negatedConversion_undivided d1 d2 rfl, operandOf_volt]
  rfl

/-- Settles O20: none of the three quantities is divided. -/
theorem undividedConversionResults : Obligations.UndividedConversionResults := by
  intro s d1 d2
  rw [exec_xtemp, exec_xacap, exec_xvsns]
  exact ⟨conversion_undivided d1 d2 rfl, conversion_undivided d1 d2 rfl, conversion_undivided d1 d2 rfl⟩

end Sys2Proof.Machine
end

section
/-!
PROOF. What the four decoders answer (spec/41_bitfield.md R90, R92 to R95): one law for every table.
-/
namespace Sys2Proof.Machine

/-- R90: `structuredView` meets the view's description that does not use the model's unpacking. -/
theorem isViewOf_structuredView (table : FieldTable) (b : Byte) : IsViewOf table b (structuredView table b) :=
  ⟨unpackByte_bit b, by simp only [structuredView, unpackByte_bit]⟩

theorem decodeView_answers_view (table : FieldTable) (b : Byte) (s : State) :
    ∃ v, decodeView table b s = .next { s with rsp := some (.flags v) } ∧ IsViewOf table b v :=
  ⟨structuredView table b, rfl, isViewOf_structuredView table b⟩

/-- Settles O26: each decoder is `decodeView` under its register's table. -/
theorem decoderViews : Obligations.DecoderViews := by
  intro s b
  simp only [List.forall_mem_cons, exec_dstat, exec_dctrl, exec_dsfr, exec_deep]
  have hview (table : FieldTable) := decodeView_answers_view table b s
  exact ⟨hview _, hview _, hview _, hview _, List.forall_mem_nil _⟩

end Sys2Proof.Machine
end

section
/-!
PROOF. The function commands by block index (spec/42_function_commands.md R104).
-/
namespace Sys2Proof.Machine

/-- R104: an index of no block answers, and nothing is returned. -/
theorem blockCommand_of_invalid {n : Int} (h0 : n ≠ 0) (h1 : n ≠ 1) (block0 block1 : Instr) (s : State) :
    blockCommand n block0 block1 s = .next (s.returning none) := by
  rw [blockCommand, if_neg h0, if_neg h1]

/-- Settles O34: each of the three calls is a `blockCommand`, and `returning` writes only what the call returned. -/
theorem invalidBlockIndexIsSilent : Obligations.InvalidBlockIndexIsSilent := by
  intro s n h0 h1
  have hsilent (block0 block1 : Instr) : ∃ t, blockCommand n block0 block1 s = .next t ∧ t.bus = s.bus ∧
      t.mem = s.mem ∧ t.chipUnsettled = s.chipUnsettled ∧ t.rsp = s.rsp ∧ t.sameConfig s :=
    ⟨s.returning none, blockCommand_of_invalid h0 h1 block0 block1 s, rfl, rfl, rfl, rfl, s.returning_sameConfig none⟩
  simp only [List.forall_mem_cons]
  exact ⟨hsilent .copy0 .copy1, hsilent .recall0 .recall1, hsilent .lock0 .lock1, List.forall_mem_nil _⟩

end Sys2Proof.Machine
end

section
/-!
PROOF. What a request with each defined code answers (spec/30_encoding.md R54, R56; spec/60_exceptions.md R110, R111). The
codes fall into three ranges: conversions, decoders and the reserved codes, whose answer the law of O6 gives.
-/
namespace Sys2Proof.Machine

variable {s : State} {req : RequestWord}

/-- R54: a code to 0x09 selects RVOLT or the conversion of a quantity, of the request's own operand bytes. -/
theorem request_eq_conversion (h : (opselOf req).toNat ≤ 0x09) (s : State) :
    request req s = negatedConversion .volt (data1Of req) (data2Of req) s ∨
      ∃ q, request req s = conversion q (data1Of req) (data2Of req) s := by
  simp only [request, decode, decodeRequest]
  generalize (opselOf req).toNat = code at h
  interval_cases code
  · exact .inr ⟨.volt, exec_xvolt _ _ s⟩
  · exact .inl (exec_rvolt _ _ s)
  · exact .inr ⟨.temp, exec_xtemp _ _ s⟩
  · exact .inr ⟨.curr, exec_xcurr _ _ s⟩
  · exact .inr ⟨.iavg, exec_xiavg _ _ s⟩
  · exact .inr ⟨.acr, exec_xacr _ _ s⟩
  · exact .inr ⟨.acrl, exec_xacrl _ _ s⟩
  · exact .inr ⟨.ab, exec_xab _ _ s⟩
  · exact .inr ⟨.acap, exec_xacap _ _ s⟩
  · exact .inr ⟨.vsns, exec_xvsns _ _ s⟩

/-- R54: a code in 0x10..0x13 selects a decoder of the request's first operand byte. -/
theorem request_eq_decodeView (hlo : 0x10 ≤ (opselOf req).toNat) (hhi : (opselOf req).toNat ≤ 0x13) (s : State) :
    ∃ table, request req s = decodeView table (data1Of req) s := by
  simp only [request, decode, decodeRequest]
  generalize (opselOf req).toNat = code at hlo hhi
  interval_cases code
  · exact ⟨s.params.statusFields, exec_dstat _ s⟩
  · exact ⟨s.params.controlFields, exec_dctrl _ s⟩
  · exact ⟨s.params.sfrFields, exec_dsfr _ s⟩
  · exact ⟨s.params.eepromFields, exec_deep _ s⟩

/-- R110: with an admitted sense resistance the operation of every code to 0x09 has a value. -/
theorem request_answers_number (hr : NumVal.admissible s.params.numFormat s.rsns = true)
    (h : (opselOf req).toNat ≤ 0x09) : ∃ v, request req s = .next (s.respond (.num v)) := by
  have hvalue (q : Quantity) : ∃ v, convert? s q (operandOf s q (data1Of req) (data2Of req)) = some v :=
    Option.isSome_iff_exists.mp (convert?_isSome hr q _)
  obtain heq | ⟨q, heq⟩ := request_eq_conversion h s
  · obtain ⟨v, hv⟩ := hvalue .volt
    exact ⟨v.neg, heq.trans (negatedConversion_of_some hv)⟩
  · obtain ⟨v, hv⟩ := hvalue q
    exact ⟨v, heq.trans (conversion_of_some hv)⟩

/-- R110: a decoder answers flags in every state. -/
theorem request_answers_flags (hlo : 0x10 ≤ (opselOf req).toNat) (hhi : (opselOf req).toNat ≤ 0x13) (s : State) :
    ∃ v, request req s = .next (s.respond (.flags v)) := by
  obtain ⟨table, heq⟩ := request_eq_decodeView hlo hhi s
  exact ⟨structuredView table (data1Of req), heq⟩

/-- Settles O46, by the range the code is in. -/
theorem everyRequestIsAnswered : Obligations.EveryRequestIsAnswered := by
  intro s req hr
  obtain hnum | ⟨hlo, hhi⟩ | hres : (opselOf req).toNat ≤ 0x09 ∨
      0x10 ≤ (opselOf req).toNat ∧ (opselOf req).toNat ≤ 0x13 ∨
      (0x0A ≤ (opselOf req).toNat ∧ (opselOf req).toNat ≤ 0x0F ∨ 0x14 ≤ (opselOf req).toNat) := by omega
  · obtain ⟨v, hv⟩ := request_answers_number hr hnum
    exact ⟨.num v, hv, fun _ => ⟨v, rfl⟩, by omega, by omega, by omega⟩
  · obtain ⟨v, hv⟩ := request_answers_flags hlo hhi s
    exact ⟨.flags v, hv, by omega, fun _ _ => ⟨v, rfl⟩, by omega, by omega⟩
  · obtain ⟨-, hinvalid⟩ := reservedRequestAnsweredInvalid s req hres
    exact ⟨.invalid, hinvalid, by omega, by omega, fun _ _ => rfl, fun _ => rfl⟩

end Sys2Proof.Machine
end

section
/-!
PROOF. The operation map and the command bytes as tables (spec/30_encoding.md R54, R58), and what follows of the encoder.
-/
namespace Sys2Proof

/-- The operation map of R54 as a table, with the operand bytes of a request. -/
def operationMap (d1 d2 : Byte) : List (Byte × Instr) :=
  [(0x00, .xvolt d1 d2), (0x01, .rvolt d1 d2), (0x02, .xtemp d1 d2), (0x03, .xcurr d1 d2), (0x04, .xiavg d1 d2),
    (0x05, .xacr d1 d2), (0x06, .xacrl d1 d2), (0x07, .xab d1 d2), (0x08, .xacap d1 d2), (0x09, .xvsns d1 d2),
    (0x10, .dstat d1), (0x11, .dctrl d1), (0x12, .dsfr d1), (0x13, .deep d1)]

/-- The command bytes of R58 as a table. -/
def commandMap : List (Byte × Instr) :=
  [(0x42, .copy0), (0x44, .copy1), (0xB2, .recall0), (0xB4, .recall1), (0x63, .lock0), (0x66, .lock1)]

theorem decodeRequest_eq_ok_iff {req : RequestWord} {i : Instr} :
    decodeRequest req = .ok i ↔ (opselOf req, i) ∈ operationMap (data1Of req) (data2Of req) := by
  constructor
  · intro h
    unfold decodeRequest at h
    split at h
    case h_15 => cases h
    all_goals
      rename_i hcode
      cases h
      simp [operationMap, BitVec.toNat_eq, hcode]
  · intro h
    simp only [operationMap, List.mem_cons, Prod.mk.injEq, List.not_mem_nil, or_false] at h
    unfold decodeRequest
    obtain ⟨ho, rfl⟩ | ⟨ho, rfl⟩ | ⟨ho, rfl⟩ | ⟨ho, rfl⟩ | ⟨ho, rfl⟩ | ⟨ho, rfl⟩ | ⟨ho, rfl⟩ | ⟨ho, rfl⟩ | ⟨ho, rfl⟩ |
      ⟨ho, rfl⟩ | ⟨ho, rfl⟩ | ⟨ho, rfl⟩ | ⟨ho, rfl⟩ | ⟨ho, rfl⟩ := h <;> rw [ho] <;> rfl

theorem decodeCommand_eq_ok_iff {b : Byte} {i : Instr} : decodeCommand b = .ok i ↔ (b, i) ∈ commandMap := by
  constructor
  · intro h
    unfold decodeCommand at h
    split at h
    case h_7 => cases h
    all_goals
      rename_i hcode
      cases h
      simp [commandMap, BitVec.toNat_eq, hcode]
  · intro h
    simp only [commandMap, List.mem_cons, Prod.mk.injEq, List.not_mem_nil, or_false] at h
    obtain ⟨rfl, rfl⟩ | ⟨rfl, rfl⟩ | ⟨rfl, rfl⟩ | ⟨rfl, rfl⟩ | ⟨rfl, rfl⟩ | ⟨rfl, rfl⟩ := h <;> rfl

/-- A request assembled from a row of the operation map decodes to the row's instruction. -/
theorem decodeRequest_requestWord {o d1 d2 : Byte} {i : Instr} (h : (o, i) ∈ operationMap d1 d2) :
    decodeRequest (requestWord o d1 d2) = .ok i := by
  rwa [decodeRequest_eq_ok_iff, opselOf_requestWord, data1Of_requestWord, data2Of_requestWord]

/-- Every instruction is sent as a request of its row of the operation map, or as the byte of its row of the command map. -/
theorem encode_cases (i : Instr) :
    (∃ o d1 d2, encode i = .request (requestWord o d1 d2) ∧ (o, i) ∈ operationMap d1 d2) ∨
      ∃ b, encode i = .command b ∧ (b, i) ∈ commandMap := by
  cases i
  case copy0 | copy1 | recall0 | recall1 | lock0 | lock1 => exact .inr ⟨_, rfl, by decide⟩
  all_goals exact .inl ⟨_, _, _, rfl, by simp [operationMap]⟩

/-- Settles O1: the word of an instruction is that of its row in one of the two tables, and decoding reads the row back. -/
theorem decodeOfEncodeIsIdentity : Obligations.DecodeOfEncodeIsIdentity := by
  intro i _
  obtain ⟨o, d1, d2, hword, hrow⟩ | ⟨b, hword, hrow⟩ := encode_cases i
  · rw [hword]
    exact decodeRequest_requestWord hrow
  · rw [hword]
    exact decodeCommand_eq_ok_iff.mpr hrow

/-- The row of a request's instruction is the one it is sent by: `DATA_2` alone may differ, where the code is a decoder's. -/
theorem encode_of_mem_operationMap {o d1 d2 : Byte} {i : Instr} (h : (o, i) ∈ operationMap d1 d2) :
    ∃ d, encode i = .request (requestWord o d1 d) ∧ (o.toNat ≤ 0x09 → d = d2) := by
  simp only [operationMap, List.mem_cons, Prod.mk.injEq, List.not_mem_nil, or_false] at h
  obtain ⟨rfl, rfl⟩ | ⟨rfl, rfl⟩ | ⟨rfl, rfl⟩ | ⟨rfl, rfl⟩ | ⟨rfl, rfl⟩ | ⟨rfl, rfl⟩ | ⟨rfl, rfl⟩ | ⟨rfl, rfl⟩ |
    ⟨rfl, rfl⟩ | ⟨rfl, rfl⟩ | ⟨rfl, rfl⟩ | ⟨rfl, rfl⟩ | ⟨rfl, rfl⟩ | ⟨rfl, rfl⟩ := h <;> exact ⟨_, rfl, by simp⟩

/-- Settles O2: the request an instruction is sent by is assembled from the fields of the one it was decoded from. -/
theorem encodeOfDecodeKeepsUsedFields : Obligations.EncodeOfDecodeKeepsUsedFields := by
  intro req i h
  obtain ⟨d, hword, hused⟩ := encode_of_mem_operationMap (decodeRequest_eq_ok_iff.mp h)
  exact ⟨_, hword, opselOf_requestWord .., data1Of_requestWord .., by rwa [data2Of_requestWord]⟩

/-- R55: the codes of the operation map are the two ranges that are not reserved. -/
theorem decodeRequest_defined_iff {req : RequestWord} :
    (∃ i, decodeRequest req = .ok i) ↔
      (opselOf req).toNat ≤ 0x09 ∨ 0x10 ≤ (opselOf req).toNat ∧ (opselOf req).toNat ≤ 0x13 := by
  constructor
  · rintro ⟨i, hi⟩
    by_contra hout
    rw [decodeRequest_reserved (by omega)] at hi
    cases hi
  · intro h
    unfold decodeRequest
    generalize (opselOf req).toNat = code at h
    obtain h | ⟨hlo, hhi⟩ := h
    · interval_cases code <;> exact ⟨_, rfl⟩
    · interval_cases code <;> exact ⟨_, rfl⟩

/-- Settles O3: the operation map row by row, and the ranges its codes make up. -/
theorem requestDefinedByOpselAlone : Obligations.RequestDefinedByOpselAlone :=
  fun _ => ⟨fun _ => decodeRequest_eq_ok_iff, decodeRequest_defined_iff⟩

/-- Settles O4, row by row of the command map. -/
theorem commandBytesAreTheSix : Obligations.CommandBytesAreTheSix :=
  fun _ _ => decodeCommand_eq_ok_iff

/-- Settles O5, by decoding the nine words. -/
theorem sampleWordsDecode : Obligations.SampleWordsDecode := by
  unfold Obligations.SampleWordsDecode
  decide

end Sys2Proof
end

section
/-!
PROOF. What a host call can do to the environment, said once for all of them, and the step properties that follow: the
invariant of a constructed instance, the canonical register space, one transaction at most (spec/20_memory.md R41, R46).
-/
namespace Sys2Proof.Machine

variable {s t : State}

/-- What one host call can do to what is known of the chip's register space, and to the mark that a command was sent. -/
inductive ChipChange (s : State) : Memory → Bool → Prop
  | kept : ChipChange s s.mem s.chipUnsettled
  | commanded : ChipChange s [] true
  | forgot (a : Byte) : ChipChange s (s.mem.forget a.toNat) s.chipUnsettled
  | landed (a b : Byte) :
    ChipChange s (landByte a.toNat b s).mem (landByte a.toNat b s).chipUnsettled
  | landedTwice {a : Byte} (b b' : Byte) (h : a ≠ 0xFF) :
    ChipChange s (landByte (a.toNat + 1) b' (landByte a.toNat b s)).mem
      (landByte (a.toNat + 1) b' (landByte a.toNat b s)).chipUnsettled

/-- `t` is `s` after one host call: nothing pending and no part of the configuration has changed, the register space at
most as `ChipChange` says, and at most one transaction is new on the bus. -/
def CallEffect (s t : State) : Prop :=
  ∃ mem unsettled frames, ChipChange s mem unsettled ∧ frames.length ≤ 1 ∧
    t = { s with
      mem := mem
      chipUnsettled := unsettled
      bus := s.bus ++ frames
      rsp := t.rsp
      ret := t.ret
      draws := t.draws }

theorem respond_effect (s : State) (r : Response) : CallEffect s (s.respond r) :=
  ⟨_, _, [], .kept, by simp, by simp [State.respond]⟩

theorem afterCommand_effect (cmd : Byte) (s : State) : CallEffect s (afterCommand cmd s) :=
  ⟨_, _, _, .commanded, le_rfl, rfl⟩

theorem returning_effect (s : State) (v : Option RawValue) : CallEffect s (s.returning v) :=
  ⟨_, _, [], .kept, by simp, by simp [State.returning]⟩

theorem exec_effect {i : Instr} (h : exec i s = .next t) : CallEffect s t := by
  obtain ⟨r, -, rfl⟩ | ⟨cmd, rfl⟩ := exec_next h
  · exact respond_effect s r
  · exact afterCommand_effect cmd s

theorem request_effect {req : RequestWord} (h : request req s = .next t) : CallEffect s t := by
  obtain ⟨r, rfl⟩ := request_next h
  exact respond_effect s r

theorem protocolRead_effect {w : RawWidth} {a : Byte} (h : protocolRead w a s = .next t) : CallEffect s t := by
  obtain ⟨v, u, hread, rfl⟩ := protocolRead_next h
  obtain ⟨data, n, rfl⟩ := busRead_ok hread
  exact ⟨_, _, [readFrame s a data], .kept, le_rfl, rfl⟩

theorem protocolWriteByte_effect {a v : Byte} (h : protocolWriteByte a v s = .next t) : CallEffect s t := by
  obtain ⟨-, rfl⟩ | ⟨hne, -, rfl⟩ := protocolWriteByte_next h
  · exact afterCommand_effect v s
  · have hland : landByte a.toNat v s = storeByte a.toNat v s := if_neg fun he => hne (BitVec.eq_of_toNat_eq he)
    have hchange := ChipChange.landed (s := s) a v
    rw [hland, storeByte_eq] at hchange
    exact ⟨_, _, _, hchange, le_rfl, rfl⟩

theorem protocolWriteWord_effect {a : Byte} {v : Word16} (h : protocolWriteWord a v s = .next t) : CallEffect s t := by
  obtain ⟨hff, -, -, rfl⟩ := protocolWriteWord_next h
  exact ⟨_, _, _, .landedTwice _ _ hff, le_rfl, rfl⟩

theorem blockCommand_effect {n : Int} {i0 i1 : Instr} (h : blockCommand n i0 i1 s = .next t) : CallEffect s t := by
  obtain ⟨-, h0⟩ | ⟨-, h1⟩ | ⟨-, -, rfl⟩ := blockCommand_next h
  · exact exec_effect h0
  · exact exec_effect h1
  · exact returning_effect s none

/-- The request an accessor makes is the conversion of its quantity, negated for the voltage (spec/30_encoding.md R61). -/
theorem exec_reading_instr (r : Reading) (d1 d2 : Byte) (s : State) :
    exec (r.instr d1 d2) s = conversion r.quantity d1 d2 s ∨
      exec (r.instr d1 d2) s = negatedConversion r.quantity d1 d2 s := by
  cases r
  case voltage => exact .inr rfl
  case current | temperature | senseVoltage | activeAbsoluteCapacity | standbyAbsoluteCapacity => exact .inl rfl

/-- If the request of an accessor answers, it has driven the response port and done nothing else. -/
theorem exec_reading_instr_next {r : Reading} {d1 d2 : Byte} (h : exec (r.instr d1 d2) s = .next t) :
    ∃ x, t = s.respond x := by
  obtain heq | heq := exec_reading_instr r d1 d2 s <;> rw [heq] at h
  · obtain ⟨v, -, rfl⟩ := conversion_next h
    exact ⟨_, rfl⟩
  · obtain ⟨v, -, rfl⟩ := negatedConversion_next h
    exact ⟨_, rfl⟩

/-- The transaction of an accessor is its read: its request makes none. -/
theorem reading_effect {r : Reading} (h : reading r s = .next t) : CallEffect s t := by
  obtain ⟨v, u, hread, hexec⟩ := reading_next h
  obtain ⟨data, n, rfl⟩ := busRead_ok hread
  obtain ⟨x, rfl⟩ := exec_reading_instr_next hexec
  exact ⟨_, _, [readFrame s _ data], .kept, le_rfl, rfl⟩

theorem writeRegisterAt_effect {name : RegName} {w : RawWidth} {offset : Nat} {v : Word16}
    (h : writeRegisterAt name w offset v s = .next t) : CallEffect s t :=
  (writeRegisterAt_next h).elim protocolWriteByte_effect protocolWriteWord_effect

/-- If a host call answers, it has done what `CallEffect` says. -/
theorem perform_effect {c : HostCall} (h : perform c s = .next t) : CallEffect s t := by
  cases c with
  | request req => exact request_effect h
  | readByte a => exact protocolRead_effect h
  | readWord a => exact protocolRead_effect h
  | writeByte a v => exact protocolWriteByte_effect h
  | writeWord a v => exact protocolWriteWord_effect h
  | copyBlock n => exact blockCommand_effect h
  | recallBlock n => exact blockCommand_effect h
  | lockBlock n => exact blockCommand_effect h
  | reading r => exact reading_effect h
  | readRegister name =>
    obtain ⟨w, hread⟩ := readRegister_next h
    exact protocolRead_effect (readRegisterAt_next hread)
  | writeRegister name v =>
    obtain ⟨w, hwrite⟩ := writeRegister_next h
    exact writeRegisterAt_effect hwrite
  | readRegisterAt name width offset => exact protocolRead_effect (readRegisterAt_next h)
  | writeRegisterAt name width offset v => exact writeRegisterAt_effect h
  | chipUpdate a =>
    cases h
    exact ⟨_, _, [], .forgot a, by simp, by simp [chipUpdate]⟩

theorem landByte_params (a : Nat) (b : Byte) (s : State) : (landByte a b s).params = s.params := by
  rw [landByte_eq]

theorem ChipChange.mem_wf {mem : Memory} {unsettled : Bool} (h : ChipChange s mem unsettled) (hs : Memory.wf s.mem) :
    Memory.wf mem := by
  cases h with
  | kept => exact hs
  | commanded => exact ⟨.nil, nofun⟩
  | forgot a => exact Memory.forget_wf _ hs
  | landed a b => exact landByte_wf a.isLt hs
  | @landedTwice a b b' hff =>
    exact landByte_wf (by bv_omega) (landByte_wf a.isLt hs)

theorem ChipChange.held_rw {mem : Memory} {unsettled : Bool} (h : ChipChange s mem unsettled)
    (hs : ∀ c ∈ s.mem, chipAccess s.params c.1 .rw = true) : ∀ c ∈ mem, chipAccess s.params c.1 .rw = true := by
  cases h with
  | kept => exact hs
  | commanded => exact nofun
  | forgot a => exact fun c hc => hs c (Memory.mem_forget hc)
  | landed a b => exact landByte_held_rw hs
  | @landedTwice a b b' _ =>
    have hfirst := landByte_held_rw (a := a.toNat) (b := b) hs
    rw [← landByte_params a.toNat b s] at hfirst ⊢
    exact landByte_held_rw hfirst

theorem ChipChange.unsettled_free {mem : Memory} {unsettled : Bool} (h : ChipChange s mem unsettled)
    (hs : s.chipUnsettled = true → s.mem = []) : unsettled = true → mem = [] := by
  cases h with
  | kept => exact hs
  | commanded => exact fun _ => rfl
  | forgot a => exact fun hu => by rw [hs hu]; rfl
  | landed a b => exact landByte_unsettled hs
  | landedTwice b b' _ => exact landByte_unsettled (landByte_unsettled hs)

/-- One host call keeps the invariant: it keeps the configuration, and its change of the register space keeps each of the
invariant's clauses about that. -/
theorem State.Inv.of_callEffect (hs : s.Inv) (h : CallEffect s t) : t.Inv := by
  obtain ⟨mem, unsettled, frames, hchange, -, ht⟩ := h
  obtain ⟨hparams, hrsns, hmho, hwf, hheld, hfree⟩ := hs
  rw [ht]
  exact ⟨hparams, hrsns, hmho, hchange.mem_wf hwf, hchange.held_rw hheld, hchange.unsettled_free hfree⟩

/-- Settles O50: taking a call off the host's list leaves the invariant, and so does whichever call it is. -/
theorem stepKeepsInstanceInvariant : Obligations.StepKeepsInstanceInvariant := by
  intro s t hs h
  obtain ⟨-, rfl⟩ | ⟨c, rest, -, hcall⟩ := step_next h
  · exact hs
  · obtain ⟨hparams, hrsns, hmho, hwf, hheld, hfree⟩ := hs
    have htaken : State.Inv { s with inputs := rest } := ⟨hparams, hrsns, hmho, hwf, hheld, hfree⟩
    exact htaken.of_callEffect (perform_effect hcall)

/-- Settles O52, by the change of the register space alone. -/
theorem stepKeepsMemoryCanonical : Obligations.StepKeepsMemoryCanonical := by
  intro s t hs h
  obtain ⟨-, rfl⟩ | ⟨c, rest, -, hcall⟩ := step_next h
  · exact hs
  · obtain ⟨mem, unsettled, frames, hchange, -, ht⟩ := perform_effect hcall
    rw [ht]
    exact hchange.mem_wf hs

/-- Settles O53: a list of at most one transaction is appended. -/
theorem stepMakesAtMostOneTransaction : Obligations.StepMakesAtMostOneTransaction := by
  intro s t h
  obtain ⟨-, rfl⟩ | ⟨c, rest, -, hcall⟩ := step_next h
  · exact .inl rfl
  · obtain ⟨mem, unsettled, frames, -, hlength, ht⟩ := perform_effect hcall
    rw [ht]
    match frames with
    | [] => exact .inl (List.append_nil _)
    | [f] => exact .inr ⟨f, rfl⟩

end Sys2Proof.Machine
end

section
/-!
PROOF. The operand integers, and the conversions' answers in the current family (spec/30_encoding.md R53, R57;
spec/40_conversion.md R66, R70 to R76; spec/60_exceptions.md R120).
-/
namespace Sys2Proof

theorem zextInt_eq_toNat {n : Nat} (v : BitVec n) : zextInt v = v.toNat := rfl

/-- Settles O9: the two's-complement integer and the natural of the library, with their ranges. -/
theorem operandIntegerByFormat : Obligations.OperandIntegerByFormat := by
  intro d1 d2
  have hw : rawValue ⟨.w16, true⟩ d1 d2 = (raw16 d1 d2).toInt := sextInt_eq_toInt _
  have hb : rawValue ⟨.w8, true⟩ d1 d2 = d1.toInt := sextInt_eq_toInt _
  have hwu : rawValue ⟨.w16, false⟩ d1 d2 = (raw16 d1 d2).toNat := zextInt_eq_toNat _
  have hbu : rawValue ⟨.w8, false⟩ d1 d2 = d1.toNat := zextInt_eq_toNat _
  rw [hw, hb, hwu, hbu]
  have hwlo := (raw16 d1 d2).le_toInt
  have hwhi := (raw16 d1 d2).toInt_lt
  have hblo := d1.le_toInt
  have hbhi := d1.toInt_lt
  exact ⟨⟨rfl, by omega, by omega⟩, ⟨rfl, by omega⟩, ⟨rfl, by omega, by omega⟩, rfl, by omega⟩

/-- R53: a byte format reads `DATA_1` alone. -/
theorem rawValue_byte {f : RawFormat} (h : f.width = .w8) (d x y : Byte) : rawValue f d x = rawValue f d y := by
  simp only [rawValue, h]

/-- Settles O10: a quotient is refused by the divisor 0 alone. -/
theorem exactArithmeticIsRational : Obligations.ExactArithmeticIsRational :=
  ⟨fun _ _ => rfl, fun _ => rfl, fun _ _ hr => if_neg (Rat.num_ne_zero.mpr hr)⟩

namespace Machine

variable {s : State}

/-- A request that decodes runs its instruction. -/
theorem request_of_decode_ok {req : RequestWord} {i : Instr} (h : decodeRequest req = .ok i) (s : State) :
    request req s = exec i s := by
  simp only [request, decode, h]

/-- A request of a row of the operation map runs the row's instruction. -/
theorem request_requestWord {o d1 d2 : Byte} {i : Instr} (h : (o, i) ∈ operationMap d1 d2) (s : State) :
    request (requestWord o d1 d2) s = exec i s :=
  request_of_decode_ok (decodeRequest_requestWord h) s

/-- R57: a conversion whose quantity has a byte format ignores `DATA_2`. -/
theorem conversion_byte {q : Quantity} (h : (s.params.format q).width = .w8) (d x y : Byte) :
    conversion q d x s = conversion q d y s := by
  rw [conversion, conversion, operandOf, operandOf, rawValue_byte h d x y]

/-- Settles O7: a decoder's row does not hold `DATA_2`, and a conversion of a byte format does not read it. -/
theorem ignoredOperandByteHasNoEffect : Obligations.IgnoredOperandByteHasNoEffect := by
  intro s d x y
  refine ⟨fun o ho => ?_, ?_, ?_⟩
  · rw [decodeRequest_defined_iff, opselOf_requestWord] at ho ⊢
    exact ho
  · have hsame {o : Byte} {i : Instr} (hx : (o, i) ∈ operationMap d x) (hy : (o, i) ∈ operationMap d y) :
        perform (.request (requestWord o d x)) s = perform (.request (requestWord o d y)) s :=
      (request_requestWord hx s).trans (request_requestWord hy s).symm
    simp only [List.forall_mem_cons]
    exact ⟨hsame (i := .dstat d) (by simp [operationMap]) (by simp [operationMap]),
      hsame (i := .dctrl d) (by simp [operationMap]) (by simp [operationMap]),
      hsame (i := .dsfr d) (by simp [operationMap]) (by simp [operationMap]),
      hsame (i := .deep d) (by simp [operationMap]) (by simp [operationMap]), List.forall_mem_nil _⟩
  · have hsame {o : Byte} {q : Quantity} {i : Byte → Byte → Instr} (hi : ∀ d2, exec (i d d2) s = conversion q d d2 s)
        (hrow : ∀ d2, (o, i d d2) ∈ operationMap d d2) (hq : (s.params.format q).width = .w8) :
        perform (.request (requestWord o d x)) s = perform (.request (requestWord o d y)) s := by
      calc request (requestWord o d x) s = conversion q d x s := (request_requestWord (hrow x) s).trans (hi x)
        _ = conversion q d y s := conversion_byte hq d x y
        _ = request (requestWord o d y) s := ((request_requestWord (hrow y) s).trans (hi y)).symm
    simp only [List.forall_mem_cons]
    exact ⟨hsame (fun d2 => exec_xtemp d d2 s) (by simp [operationMap]),
      hsame (fun d2 => exec_xcurr d d2 s) (by simp [operationMap]),
      hsame (fun d2 => exec_xiavg d d2 s) (by simp [operationMap]),
      hsame (fun d2 => exec_xacr d d2 s) (by simp [operationMap]),
      hsame (fun d2 => exec_xacrl d d2 s) (by simp [operationMap]),
      hsame (fun d2 => exec_xab d d2 s) (by simp [operationMap]),
      hsame (fun d2 => exec_xacap d d2 s) (by simp [operationMap]),
      hsame (fun d2 => exec_xvsns d d2 s) (by simp [operationMap]), List.forall_mem_nil _⟩

/-- R65 in exact arithmetic: a divided quantity is converted to the rational `raw * FACTOR[q] / RSNS`. -/
theorem convert?_exact_divided {q : Quantity} {r : Rat} (hfmt : s.params.numFormat = .exact) (hr : s.rsns = .exact r)
    (hr0 : r ≠ 0) (hq : q.divByRsns = true) (raw : Int) :
    convert? s q raw = some (.exact (raw * s.params.factor q / r)) := by
  obtain ⟨-, -, hquot⟩ := exactArithmeticIsRational
  rw [convert?_divided hq, hr, transfer, hfmt]
  exact hquot _ r hr0

/-- Settles O22: each of the five is the conversion of a divided quantity. -/
theorem currentFamilyExactValues : Obligations.CurrentFamilyExactValues := by
  intro s d1 d2 r hfmt hr hr0
  simp only [List.forall_mem_cons, exec_xcurr, exec_xiavg, exec_xacr, exec_xacrl, exec_xab]
  have hvalue (q : Quantity) (hq : q.divByRsns = true) :
      conversion q d1 d2 s = .next (s.respond (.num (.exact (operandOf s q d1 d2 * s.params.factor q / r)))) :=
    conversion_of_some (convert?_exact_divided hfmt hr hr0 hq _)
  exact ⟨hvalue .curr rfl, hvalue .iavg rfl, hvalue .acr rfl, hvalue .acrl rfl, hvalue .ab rfl, List.forall_mem_nil _⟩

/-- R120: a divided quantity has no value in a state whose sense resistance is not admitted, so its conversion stops. -/
theorem conversion_unadmitted {q : Quantity} (hr : NumVal.admissible s.params.numFormat s.rsns = false)
    (hq : q.divByRsns = true) (d1 d2 : Byte) : conversion q d1 d2 s = .refused .senseResistorNotAdmitted := by
  have hnone : convert? s q (operandOf s q d1 d2) = none := by
    rw [convert?_divided hq, ← Option.not_isSome_iff_eq_none, transfer, NumVal.quotient?_scale_isSome, hr]
    exact Bool.false_ne_true
  rw [conversion, hnone]

/-- Settles O23: each of the five is the conversion of a divided quantity. -/
theorem currentFamilyNeverDividesByUnadmittedSense : Obligations.CurrentFamilyNeverDividesByUnadmittedSense := by
  intro s d1 d2 hr
  simp only [List.forall_mem_cons, exec_xcurr, exec_xiavg, exec_xacr, exec_xacrl, exec_xab]
  have hstop (q : Quantity) (hq : q.divByRsns = true) := conversion_unadmitted hr hq d1 d2
  exact ⟨hstop .curr rfl, hstop .iavg rfl, hstop .acr rfl, hstop .acrl rfl, hstop .ab rfl, List.forall_mem_nil _⟩

/-- Settles O24: the two quantities have one factor, and under equal formats one operand, so one transfer. -/
theorem currentIsSenseVoltageOverResistance : Obligations.CurrentIsSenseVoltageOverResistance := by
  intro s d1 d2 hr hfmt
  obtain ⟨v, hv, hanswer⟩ := conversion_divided (q := .curr) d1 d2 rfl hr
  have hoperand : operandOf s .curr d1 d2 = operandOf s .vsns d1 d2 := congrArg (rawValue · d1 d2) hfmt
  rw [hoperand] at hv
  exact ⟨_, v, conversion_undivided (q := .vsns) d1 d2 rfl, hanswer, hv⟩

end Machine

end Sys2Proof
end

section
/-!
PROOF. The decoders' flags and bits (spec/41_bitfield.md R91, R92, R96, R97).
-/
namespace Sys2Proof.Machine

/-- R92: the six flags of a Status byte's view, by name. -/
theorem flag?_statusView (p : Params) (b : Byte) :
    let v := structuredView p.statusFields b
    v.flag? .chgtf = some (b.getLsbD 0) ∧ v.flag? .uvf = some (b.getLsbD 6) ∧
      v.flag? .aef = some (b.getLsbD p.statusPos.aef) ∧ v.flag? .sef = some (b.getLsbD p.statusPos.sef) ∧
      v.flag? .learnf = some (b.getLsbD p.statusPos.learnf) ∧ v.flag? .porf = some (b.getLsbD p.statusPos.porf) := by
  have hbit (i : Fin 8) : some ((unpackByte b).bit i) = some (b.getLsbD i) := congrArg some (unpackByte_bit b i)
  exact ⟨hbit 0, hbit 6, hbit _, hbit _, hbit _, hbit _⟩

/-- Settles O27, with the view under the table of the Status Register. -/
theorem statusFlagPositions : Obligations.StatusFlagPositions :=
  fun s b => ⟨_, exec_dstat b s, flag?_statusView s.params b⟩

/-- R22: an admitted position of one of the four OPEN Status flags is neither CHGTF's nor UVF's. -/
theorem statusPos_ne {p : StatusPos} (h : p.wellFormed = true) : ∀ i ∈ [p.aef, p.sef, p.learnf, p.porf], i ≠ 0 ∧ i ≠ 6 := by
  simp only [StatusPos.wellFormed, Bool.and_eq_true, List.all_eq_true, bne_iff_ne] at h
  exact h.2

/-- Settles O28: 0x01 and 0x40 have one bit set, which no position of an OPEN flag is. -/
theorem statusSourceExamples : Obligations.StatusSourceExamples := by
  intro s hpos
  have hne := statusPos_ne hpos
  simp only [List.forall_mem_cons] at hne
  obtain ⟨haef, hsef, hlearnf, hporf, -⟩ := hne
  have hone (i : Fin 8) : i ≠ 0 ∧ i ≠ 6 → some ((0x01 : Byte).getLsbD i) = some false := by
    revert i
    decide
  have hforty (i : Fin 8) : i ≠ 0 ∧ i ≠ 6 → some ((0x40 : Byte).getLsbD i) = some false := by
    revert i
    decide
  simp only [List.forall_mem_cons]
  constructor
  · obtain ⟨hchgtf', huvf', haef', hsef', hlearnf', hporf'⟩ := flag?_statusView s.params 0x01
    exact ⟨_, exec_dstat _ s, hchgtf', haef'.trans (hone _ haef), hsef'.trans (hone _ hsef),
      hlearnf'.trans (hone _ hlearnf), huvf', hporf'.trans (hone _ hporf), List.forall_mem_nil _⟩
  · obtain ⟨hchgtf', huvf', haef', hsef', hlearnf', hporf'⟩ := flag?_statusView s.params 0x40
    exact ⟨_, exec_dstat _ s, huvf', hchgtf', haef'.trans (hforty _ haef), hsef'.trans (hforty _ hsef),
      hlearnf'.trans (hforty _ hlearnf), hporf'.trans (hforty _ hporf), List.forall_mem_nil _⟩

/-- Settles O29: a named flag is the byte's bit at its position. -/
theorem reservedBitsLeaveNamedFlags : Obligations.ReservedBitsLeaveNamedFlags := by
  intro table b b' h
  obtain ⟨hbits, hnamed⟩ := isViewOf_structuredView table b
  obtain ⟨-, hnamed'⟩ := isViewOf_structuredView table b'
  refine ⟨?_, hbits⟩
  rw [hnamed, hnamed']
  exact List.map_congr_left fun f hf => congrArg (f.1, ·) (h f hf)

/-- Bit i of a packed byte is output i. -/
theorem getLsbD_packBits (v : FlagBits) (i : Fin 8) : (packBits v).getLsbD i = v.bit i := by
  obtain ⟨b7, b6, b5, b4, b3, b2, b1, b0⟩ := v
  revert b7 b6 b5 b4 b3 b2 b1 b0
  fin_cases i <;> decide

/-- Settles O30: both ways bit by bit. -/
theorem packAndUnpackAreInverse : Obligations.PackAndUnpackAreInverse := by
  constructor
  · intro b
    apply BitVec.eq_of_getLsbD_eq
    intro i hi
    exact (getLsbD_packBits (unpackByte b) ⟨i, hi⟩).trans (unpackByte_bit b ⟨i, hi⟩)
  · intro v
    have hbit (i : Fin 8) : bitOf (packBits v) i = v.bit i := (bitOf_eq_getLsbD _ _).trans (getLsbD_packBits v i)
    unfold unpackByte
    congr
    · exact hbit 7
    · exact hbit 6
    · exact hbit 5
    · exact hbit 4
    · exact hbit 3
    · exact hbit 2
    · exact hbit 1
    · exact hbit 0

/-- Settles O31: the eight bits of a view do not depend on its table. -/
theorem decodersShareTheirBits : Obligations.DecodersShareTheirBits :=
  fun s b => ⟨_, _, _, _, unpackByte b, exec_dstat b s, exec_dctrl b s, exec_dsfr b s, exec_deep b s⟩

end Sys2Proof.Machine
end

section
/-!
PROOF. The function commands (spec/42_function_commands.md R100 to R106).
-/
namespace Sys2Proof.Machine

variable {s : State}

/-- Settles O32: each of the six is `functionCommand` of its byte. -/
theorem functionCommandsTransmitTheirByte : Obligations.FunctionCommandsTransmitTheirByte := by
  intro s
  have hsent (cmd : Byte) : functionCommand cmd s = .next (commandSent cmd s) := functionCommand_eq cmd s
  exact ⟨hsent 0x42, hsent 0x44, hsent 0xB2, hsent 0xB4, hsent 0x63, hsent 0x66⟩

/-- R101 to R104: a command with a block index, where each of its two instructions sends its byte. -/
theorem blockCommand_eq {block0 block1 : Instr} {c0 c1 : Byte} (h0 : exec block0 s = .next (commandSent c0 s))
    (h1 : exec block1 s = .next (commandSent c1 s)) (n : Int) :
    blockCommand n block0 block1 s =
      .next (if n = 0 then commandSent c0 s else if n = 1 then commandSent c1 s else { s with ret := none }) := by
  unfold blockCommand
  split
  · exact h0
  · split
    · exact h1
    · rfl

/-- Settles O33, by what the six instructions send. -/
theorem blockCommandsByIndex : Obligations.BlockCommandsByIndex := by
  intro s n
  obtain ⟨hcopy0, hcopy1, hrecall0, hrecall1, hlock0, hlock1⟩ := functionCommandsTransmitTheirByte s
  exact ⟨blockCommand_eq hcopy0 hcopy1 n, blockCommand_eq hrecall0 hrecall1 n, blockCommand_eq hlock0 hlock1 n⟩

theorem command_of_decode_ok {b : Byte} {i : Instr} (h : decodeCommand b = .ok i) (s : State) : command b s = exec i s := by
  simp only [command, decode, h]

theorem command_of_not_decoded {b : Byte} (h : ∀ i, decodeCommand b ≠ .ok i) (s : State) :
    command b s = .refused (.unknownCommand b) := by
  unfold command
  split
  · exact absurd ‹_› (h _)
  · rfl

end Sys2Proof.Machine
end

section
/-!
PROOF. Which single-byte accesses are refused (spec/20_memory.md R31, R32; spec/42_function_commands.md R100).
-/
namespace Sys2Proof.Machine

variable {s : State} {p : Params} {a : Nat} {m : Access}

theorem chipAccess_iff :
    chipAccess p a m = true ↔
      (∃ e ∈ p.regmap.entries, e.covers a = true) ∧ ∀ e ∈ p.regmap.entries, e.covers a = true → e.access = m := by
  simp only [chipAccess, Bool.and_eq_true, Bool.not_eq_true', List.isEmpty_eq_false_iff_exists_mem, List.mem_filter,
    List.all_eq_true, beq_iff_eq, and_imp]

/-- Where all the registers have a mode, they have no other. -/
theorem chipAccess_of_ne {m' : Access} (h : chipAccess p a m = true) (hne : m' ≠ m) : chipAccess p a m' = false := by
  obtain ⟨⟨e, he, hcovers⟩, hmode⟩ := chipAccess_iff.mp h
  by_contra hc
  obtain ⟨-, hmode'⟩ := chipAccess_iff.mp (Bool.not_eq_false _ ▸ hc)
  exact hne ((hmode' e he hcovers).symm.trans (hmode e he hcovers))

/-- R100: the function-command register is no read/write register. -/
theorem ne_command_of_readWrite (h : chipAccess p a .rw = true) : a ≠ 0xFE := by
  rintro rfl
  have hnot : chipAccess p 0xFE .rw = false := chipAccess_entry .functionCommand rfl nofun
  rw [hnot] at h
  cases h

theorem isReserved_of_not_mem {b : Byte} (h : b ∉ p.reserved) : isReserved p b.toNat = false := by
  simp only [isReserved, List.any_eq_false, beq_iff_eq]
  intro r hr heq
  exact h (BitVec.eq_of_toNat_eq heq ▸ hr)

/-- R42: a byte of a read/write register may be read. -/
theorem readRefusal?_readWrite (hr : isReserved p a = false) (h : chipAccess p a .rw = true) : readRefusal? p a = none := by
  simp [readRefusal?, hr, ne_command_of_readWrite h, chipAccess_of_ne h (m' := .w) nofun]

/-- R42: and it may be written. -/
theorem writeRefusal?_readWrite (hr : isReserved p a = false) (h : chipAccess p a .rw = true) :
    writeRefusal? p a = none := by
  simp [writeRefusal?, hr, chipAccess_of_ne h (m' := .r) nofun]

/-- R100: a write-only register is not read, 0xFE among them. -/
theorem readRefusal?_writeOnly (hr : isReserved p a = false) (h : a = 0xFE ∨ chipAccess p a .w = true) :
    readRefusal? p a = some (.readOfWriteOnly a) := by
  rw [readRefusal?, hr, if_neg Bool.false_ne_true, if_pos h]

/-- Log entry 18: a read-only register is not written. -/
theorem writeRefusal?_readOnly (hr : isReserved p a = false) (h : chipAccess p a .r = true) :
    writeRefusal? p a = some (.writeOfReadOnly a) := by
  rw [writeRefusal?, hr, if_neg Bool.false_ne_true, if_pos h]

/-- Settles O35: 0xFE takes the commands, and every other refusal is that of the address. -/
theorem byteWrittenToCommandRegister : Obligations.ByteWrittenToCommandRegister := by
  intro s a b
  refine ⟨⟨fun i hi => command_of_decode_ok hi s, fun hnone => command_of_not_decoded hnone s⟩, fun hres => ?_,
    fun hres hany => ⟨fun hmode => ?_, fun hne hmode => ?_⟩⟩
  · exact protocolRead_byte_refused (readRefusal?_writeOnly (isReserved_of_not_mem hres) (.inl rfl))
  · exact protocolRead_byte_refused
      (readRefusal?_writeOnly (isReserved_of_not_mem hres) (.inr (chipAccess_iff.mpr ⟨hany, hmode⟩)))
  · exact protocolWriteByte_refused hne
      (writeRefusal?_readOnly (isReserved_of_not_mem hres) (chipAccess_iff.mpr ⟨hany, hmode⟩)) b

end Sys2Proof.Machine
end

section
/-!
PROOF. The four protocol calls where they answer, and what they leave unchanged (spec/20_memory.md R36 to R43).
-/
namespace Sys2Proof.Machine

variable {s t : State} {a : Byte}

/-- R38: a byte write that is not refused. -/
theorem protocolWriteByte_of_allowed (hne : a ≠ 0xFE) (h : writeRefusal? s.params a.toNat = none) (v : Byte) :
    protocolWriteByte a v s = .next { s with
      mem := (storeByte a.toNat v s).mem, ret := none, bus := s.bus ++ [writeFrame s a [v]] } := by
  rw [protocolWriteByte, if_neg hne, h, storeByte_eq]
  rfl

/-- Settles O37: the store changes what is held at its own address alone. -/
theorem byteWriteSendsItsByte : Obligations.ByteWriteSendsItsByte := by
  intro s a v hne h
  exact ⟨_, protocolWriteByte_of_allowed hne h v, rfl, fun b hb => storeByte_get?_other v s hb⟩

/-- R39: a word write neither of whose bytes is refused. -/
theorem protocolWriteWord_of_allowed {v : Word16} (hff : a ≠ 0xFF)
    (h0 : landingRefusal? s.params a.toNat (highByte v) = none)
    (h1 : landingRefusal? s.params (a.toNat + 1) (lowByte v) = none) :
    protocolWriteWord a v s = .next { s with
      mem := (landByte (a.toNat + 1) (lowByte v) (landByte a.toNat (highByte v) s)).mem
      chipUnsettled := (landByte (a.toNat + 1) (lowByte v) (landByte a.toNat (highByte v) s)).chipUnsettled
      ret := none
      bus := s.bus ++ [writeFrame s a [highByte v, lowByte v]] } := by
  simp only [protocolWriteWord, hff, if_false, h0, h1]
  rw [landByte_eq (a.toNat + 1), landByte_eq a.toNat]
  rfl

theorem storeByte_params (n : Nat) (b : Byte) (s : State) : (storeByte n b s).params = s.params := by
  rw [storeByte_eq]

theorem storeByte_chipUnsettled (n : Nat) (b : Byte) (s : State) : (storeByte n b s).chipUnsettled = s.chipUnsettled := by
  rw [storeByte_eq]

/-- A byte that lands anywhere but at 0xFE is stored. -/
theorem landByte_of_ne {n : Nat} (h : n ≠ 0xFE) (b : Byte) (s : State) : landByte n b s = storeByte n b s := if_neg h

/-- After a byte that landed at 0xFE nothing is known of the chip, whatever lands next. -/
theorem landByte_of_command {n : Nat} {b : Byte} (hu : s.chipUnsettled = true) (hm : s.mem = []) :
    (landByte n b s).chipUnsettled = true ∧ (landByte n b s).mem = [] := by
  have hunsettled : (landByte n b s).chipUnsettled = true := by
    obtain ⟨-, h⟩ | ⟨-, h⟩ := landByte_cases n b s <;> rw [h]
    · rfl
    · rw [storeByte_chipUnsettled, hu]
  exact ⟨hunsettled, landByte_unsettled (fun _ => hm) hunsettled⟩

/-- Settles O36: below 0xFD both bytes are stored; of a word at 0xFD or 0xFE one byte is a command. -/
theorem wordWriteSendsHighByteFirst : Obligations.WordWriteSendsHighByteFirst := by
  intro s a v hff h0 h1
  refine ⟨_, protocolWriteWord_of_allowed hff h0 h1, rfl, fun hlow => ?_, fun hcmd => ?_⟩
  · rw [landByte_of_ne (show a.toNat ≠ 0xFE by omega), landByte_of_ne (show a.toNat + 1 ≠ 0xFE by omega)]
    refine ⟨by rw [storeByte_chipUnsettled, storeByte_chipUnsettled], fun b hb hb' => ?_⟩
    exact (storeByte_get?_other _ _ hb').trans (storeByte_get?_other _ _ hb)
  · obtain rfl | rfl := hcmd
    · exact ⟨rfl, rfl⟩
    · exact landByte_of_command rfl rfl

/-- A byte fetch counts the free bytes drawn and changes nothing else. -/
theorem fetchByte_eq (n : Nat) (s : State) :
    fetchByte n s = ((fetchByte n s).1, { s with draws := (fetchByte n s).2.draws }) := by
  obtain h | h := fetchByte_state n s
  · exact Prod.ext rfl (by rw [h])
  · exact Prod.ext rfl (by rw [h])

theorem fetchByte_mem (n : Nat) (s : State) : (fetchByte n s).2.mem = s.mem := by
  rw [fetchByte_eq]

/-- R42, R44: the byte the chip answers is the one held, or else the next free one. -/
theorem fetchByte_fst (n : Nat) (s : State) : (fetchByte n s).1 = (s.mem.get? n).getD (Config.chipByte s.draws) := by
  cases h : s.mem.get? n with
  | none => rw [fetchByte_free h, Option.getD_none]
  | some b => rw [fetchByte_held h, Option.getD_some]

/-- R36: a byte read that is not refused. -/
theorem protocolRead_byte_of_allowed (h : readRefusal? s.params a.toNat = none) :
    protocolRead .w8 a s = .next { s with
      ret := some (.byte (fetchByte a.toNat s).1)
      draws := (fetchByte a.toNat s).2.draws
      bus := s.bus ++ [readFrame s a [(fetchByte a.toNat s).1]] } := by
  simp only [protocolRead, busRead, h]
  rw [fetchByte_eq]
  rfl

/-- R37: a word read neither of whose bytes is refused. -/
theorem protocolRead_word_of_allowed (hff : a ≠ 0xFF) (h0 : readRefusal? s.params a.toNat = none)
    (h1 : readRefusal? s.params (a.toNat + 1) = none) :
    protocolRead .w16 a s = .next { s with
      ret := some (.word (raw16 (fetchByte a.toNat s).1 (fetchByte (a.toNat + 1) (fetchByte a.toNat s).2).1))
      draws := (fetchByte (a.toNat + 1) (fetchByte a.toNat s).2).2.draws
      bus := s.bus ++
        [readFrame s a [(fetchByte a.toNat s).1, (fetchByte (a.toNat + 1) (fetchByte a.toNat s).2).1]] } := by
  simp only [protocolRead, busRead, hff, if_false, h0, h1]
  rw [fetchByte_eq (a.toNat + 1), fetchByte_eq a.toNat]
  rfl

/-- Settles O39, with the byte the chip answers. -/
theorem byteReadReturnsItsByte : Obligations.ByteReadReturnsItsByte :=
  fun _ _ h => ⟨_, _, protocolRead_byte_of_allowed h⟩

/-- Settles O38, with the two bytes the chip answers. -/
theorem wordReadIsBigEndian : Obligations.WordReadIsBigEndian :=
  fun _ _ hff h0 h1 => ⟨_, _, _, protocolRead_word_of_allowed hff h0 h1⟩

/-- Settles O41: a byte that is not held is fetched as the next free one. -/
theorem unknownByteIsFree : Obligations.UnknownByteIsFree := by
  intro s a h hfree
  refine ⟨_, protocolRead_byte_of_allowed h, ?_, ?_, rfl⟩
  · simp only [fetchByte_free hfree]
  · simp only [fetchByte_free hfree]

/-- Settles O44: each of the four calls that answers has appended its own frame. -/
theorem protocolCallIsOneTransaction : Obligations.ProtocolCallIsOneTransaction := by
  intro s t a b v c hc h
  have hread (w : RawWidth) (h : protocolRead w a s = .next t) : ∃ f, t.bus = s.bus ++ [f] := by
    obtain ⟨x, u, hbus, rfl⟩ := protocolRead_next h
    obtain ⟨data, n, rfl⟩ := busRead_ok hbus
    exact ⟨_, rfl⟩
  simp only [List.mem_cons, List.not_mem_nil, or_false] at hc
  obtain rfl | rfl | rfl | rfl := hc
  · exact hread .w8 h
  · exact hread .w16 h
  · obtain ⟨-, rfl⟩ | ⟨-, -, rfl⟩ := protocolWriteByte_next h <;> exact ⟨_, rfl⟩
  · obtain ⟨-, -, -, rfl⟩ := protocolWriteWord_next h
    exact ⟨_, rfl⟩

/-! Reading back what was written (spec/20_memory.md R42). -/

/-- A byte stored in a read/write register of a settled chip is held. -/
theorem storeByte_get?_same {n : Nat} (h : chipAccess s.params n .rw = true) (hu : s.chipUnsettled = false) (b : Byte) :
    Memory.get? (storeByte n b s).mem n = some b := by
  obtain ⟨-, -, hs⟩ | ⟨hno | hno, -⟩ := storeByte_cases n b s
  · rw [hs]
    exact Memory.get?_set_same _ _ _
  · rw [h] at hno
    cases hno
  · rw [hu] at hno
    cases hno

/-- R42 for a byte: the write and the read answer; a settled chip returns the byte, an unsettled one its next free byte. -/
theorem writeByte_readByte (hr : isReserved s.params a.toNat = false) (hrw : chipAccess s.params a.toNat .rw = true)
    (x : Byte) :
    ∃ t u, protocolWriteByte a x s = .next t ∧ protocolRead .w8 a t = .next u ∧
      (s.chipUnsettled = false → u.ret = some (.byte x)) ∧
      (s.chipUnsettled = true → s.mem = [] → u.ret = some (.byte (Config.chipByte s.draws))) := by
  have hne : a ≠ 0xFE := fun he => ne_command_of_readWrite hrw (congrArg BitVec.toNat he)
  refine ⟨_, _, protocolWriteByte_of_allowed hne (writeRefusal?_readWrite hr hrw) x,
    protocolRead_byte_of_allowed (readRefusal?_readWrite hr hrw), fun hu => ?_, fun hu hm => ?_⟩
  · simp only [fetchByte_fst, storeByte_get?_same hrw hu x, Option.getD_some]
  · simp only [storeByte_unsettled hu hm]
    rfl

/-- R42 for a word, whose two bytes are stored each in its own register. -/
theorem writeWord_readWord (hff : a ≠ 0xFF)
    (hboth : ∀ b, b = a.toNat ∨ b = a.toNat + 1 → isReserved s.params b = false ∧ chipAccess s.params b .rw = true)
    (v : Word16) :
    ∃ t u, protocolWriteWord a v s = .next t ∧ protocolRead .w16 a t = .next u ∧
      (s.chipUnsettled = false → u.ret = some (.word v)) ∧
      (s.chipUnsettled = true → s.mem = [] →
        u.ret = some (.word (raw16 (Config.chipByte s.draws) (Config.chipByte (s.draws + 1))))) := by
  obtain ⟨hr0, hrw0⟩ := hboth a.toNat (.inl rfl)
  obtain ⟨hr1, hrw1⟩ := hboth (a.toNat + 1) (.inr rfl)
  have hne0 := ne_command_of_readWrite hrw0
  have hne1 := ne_command_of_readWrite hrw1
  have hland {n : Nat} (hr : isReserved s.params n = false) (hrw : chipAccess s.params n .rw = true) (b : Byte) :
      landingRefusal? s.params n b = none := by
    rw [landingRefusal?, if_neg (ne_command_of_readWrite hrw), writeRefusal?_readWrite hr hrw]
  refine ⟨_, _, protocolWriteWord_of_allowed hff (hland hr0 hrw0 _) (hland hr1 hrw1 _),
    protocolRead_word_of_allowed hff (readRefusal?_readWrite hr0 hrw0) (readRefusal?_readWrite hr1 hrw1), ?_, ?_⟩
  all_goals rw [landByte_of_ne hne1, landByte_of_ne hne0]
  · intro hu
    have hfirst : Memory.get? (storeByte (a.toNat + 1) (lowByte v) (storeByte a.toNat (highByte v) s)).mem a.toNat =
        some (highByte v) :=
      (storeByte_get?_other _ _ (by omega)).trans (storeByte_get?_same hrw0 hu _)
    have hsecond : Memory.get? (storeByte (a.toNat + 1) (lowByte v) (storeByte a.toNat (highByte v) s)).mem (a.toNat + 1) =
        some (lowByte v) :=
      storeByte_get?_same (by rw [storeByte_params]; exact hrw1) (by rw [storeByte_chipUnsettled, hu]) _
    simp only [fetchByte_fst, fetchByte_mem, hfirst, hsecond, Option.getD_some, raw16_highByte_lowByte]
  · intro hu hm
    have hempty : (storeByte (a.toNat + 1) (lowByte v) (storeByte a.toNat (highByte v) s)).mem = [] :=
      storeByte_unsettled (by rw [storeByte_chipUnsettled, hu]) (storeByte_unsettled hu hm)
    simp only [hempty]
    rfl

/-- Settles O40, for the byte and for the word. -/
theorem writtenWordReadsBack : Obligations.WrittenWordReadsBack := by
  intro s a v x
  exact ⟨fun ⟨hr, hrw⟩ => writeByte_readByte hr hrw x, fun hff hboth => writeWord_readWord hff hboth v⟩

/-! Where a word access is refused (spec/20_memory.md R43). -/

theorem readRefusal?_ne_wordPastEnd (p : Params) (n : Nat) : readRefusal? p n ≠ some .wordPastEnd := by
  unfold readRefusal?
  split
  · exact nofun
  · split <;> exact nofun

/-- A write is refused for its address, never for the byte or the end of the space. -/
theorem writeRefusal?_cases {p : Params} {n : Nat} {r : Refusal} (h : writeRefusal? p n = some r) :
    r = .reservedAddress n ∨ r = .writeOfReadOnly n := by
  unfold writeRefusal? at h
  split at h
  · cases h
    exact .inl rfl
  · split at h
    · cases h
      exact .inr rfl
    · cases h

/-- A byte is refused where it lands for its address, or at 0xFE as no command. -/
theorem landingRefusal?_cases {p : Params} {n : Nat} {b : Byte} {r : Refusal} (h : landingRefusal? p n b = some r) :
    (n = 0xFE ∧ r = .unknownCommand b ∧ ∀ i, decodeCommand b ≠ .ok i) ∨ r = .reservedAddress n ∨ r = .writeOfReadOnly n := by
  unfold landingRefusal? at h
  split at h
  · split at h
    · cases h
    · rename_i hb
      cases h
      exact .inl ⟨‹_›, rfl, fun i hi => by rw [decode, hi] at hb; cases hb⟩
  · exact .inr (writeRefusal?_cases h)

theorem landingRefusal?_command {b : Byte} (h : ∀ i, decodeCommand b ≠ .ok i) (p : Params) :
    landingRefusal? p 0xFE b = some (.unknownCommand b) := by
  rw [landingRefusal?, if_pos rfl]
  split
  · exact absurd ‹_› (h _)
  · rfl

/-- If a word read is refused, it starts at 0xFF, or one of its two addresses is refused. -/
theorem protocolRead_word_refused {r : Refusal} (h : protocolRead .w16 a s = .refused r) :
    (a = 0xFF ∧ r = .wordPastEnd) ∨
      readRefusal? s.params a.toNat = some r ∨ readRefusal? s.params (a.toNat + 1) = some r := by
  simp only [protocolRead, busRead] at h
  split at h
  · rename_i hread
    cases h
    split at hread
    · cases hread
      exact .inl ⟨‹_›, rfl⟩
    · split at hread
      · cases hread
        exact .inr (.inl ‹_›)
      · cases hread
        exact .inr (.inr ‹_›)
      · cases hread
  · cases h

/-- If a word write is refused, it starts at 0xFF, or one of its two bytes is refused where it would land. -/
theorem protocolWriteWord_refused {v : Word16} {r : Refusal} (h : protocolWriteWord a v s = .refused r) :
    (a = 0xFF ∧ r = .wordPastEnd) ∨ landingRefusal? s.params a.toNat (highByte v) = some r ∨
      landingRefusal? s.params (a.toNat + 1) (lowByte v) = some r := by
  unfold protocolWriteWord at h
  split at h
  · cases h
    exact .inl ⟨‹_›, rfl⟩
  · split at h
    · cases h
      exact .inr (.inl ‹_›)
    · cases h
      exact .inr (.inr ‹_›)
    · cases h

theorem protocolWriteWord_first_refused {v : Word16} {r : Refusal} (hff : a ≠ 0xFF)
    (h : landingRefusal? s.params a.toNat (highByte v) = some r) : protocolWriteWord a v s = .refused r := by
  simp only [protocolWriteWord, hff, if_false, h]

theorem protocolWriteWord_second_refused {v : Word16} {r : Refusal} (hff : a ≠ 0xFF)
    (h0 : landingRefusal? s.params a.toNat (highByte v) = none)
    (h1 : landingRefusal? s.params (a.toNat + 1) (lowByte v) = some r) : protocolWriteWord a v s = .refused r := by
  simp only [protocolWriteWord, hff, if_false, h0, h1]

/-- R43: a word read is refused for the end of the space at 0xFF alone. -/
theorem readWord_wordPastEnd_iff : protocolRead .w16 a s = .refused .wordPastEnd ↔ a = 0xFF := by
  refine ⟨fun h => ?_, fun h => by subst h; rfl⟩
  obtain ⟨hff, -⟩ | h | h := protocolRead_word_refused h
  · exact hff
  · exact absurd h (readRefusal?_ne_wordPastEnd _ _)
  · exact absurd h (readRefusal?_ne_wordPastEnd _ _)

/-- R43: and so is a word write. -/
theorem writeWord_wordPastEnd_iff {v : Word16} : protocolWriteWord a v s = .refused .wordPastEnd ↔ a = 0xFF := by
  refine ⟨fun h => ?_, fun h => by subst h; rfl⟩
  obtain ⟨hff, -⟩ | h | h := protocolWriteWord_refused h
  · exact hff
  all_goals obtain ⟨-, h, -⟩ | h | h := landingRefusal?_cases h <;> cases h

/-- R106: a word write is refused as a command only for the byte that lands at 0xFE. -/
theorem writeWord_unknownCommand {v : Word16} {b : Byte} (h : protocolWriteWord a v s = .refused (.unknownCommand b)) :
    (a = 0xFE ∧ b = highByte v ∨ a = 0xFD ∧ b = lowByte v) ∧ ∀ i, decodeCommand b ≠ .ok i := by
  obtain ⟨-, h⟩ | h | h := protocolWriteWord_refused h
  · cases h
  · obtain ⟨ha, hb, hnone⟩ | h | h := landingRefusal?_cases h
    · cases hb
      exact ⟨.inl ⟨BitVec.eq_of_toNat_eq ha, rfl⟩, hnone⟩
    all_goals cases h
  · obtain ⟨ha, hb, hnone⟩ | h | h := landingRefusal?_cases h
    · cases hb
      exact ⟨.inr ⟨BitVec.eq_of_toNat_eq (Nat.succ.inj ha), rfl⟩, hnone⟩
    all_goals cases h

/-- Settles O42: the two ends of the space and the two places a byte of a word can be a command. -/
theorem wordAccessAtEndOfSpace : Obligations.WordAccessAtEndOfSpace := by
  intro s a v
  refine ⟨readWord_wordPastEnd_iff, writeWord_wordPastEnd_iff, fun hnone => ?_, fun hfree hnone => ?_,
    fun b h => writeWord_unknownCommand h⟩
  · exact protocolWriteWord_first_refused (by decide) (landingRefusal?_command hnone _)
  · exact protocolWriteWord_second_refused (by decide) hfree (landingRefusal?_command hnone _)

end Sys2Proof.Machine
end

section
/-!
PROOF. The accessors (spec/30_encoding.md R61) and the registers by name (spec/20_memory.md R41, R46).
-/
namespace Sys2Proof.Machine

variable {s t : State} {name : RegName} {w : RawWidth} {offset : Nat} {v : Word16}

/-! A register by its name is the protocol call at its address, or refused by its own mode (R31). -/

theorem nameReadRefusal?_of_ne {e : RegEntry} (h : e.access ≠ .w) : nameReadRefusal? e = none := if_neg h

theorem nameWriteRefusal?_of_ne {e : RegEntry} (h : e.access ≠ .r) : nameWriteRefusal? e = none := if_neg h

theorem readRegisterAt_of_readable (h : (s.params.regmap.entry name).access ≠ .w)
    (hfit : offset + accessBytes w ≤ (s.params.regmap.entry name).width.bytes) :
    readRegisterAt name w offset s = protocolRead w ((s.params.regmap.entry name).addrAt offset) s := by
  simp only [readRegisterAt, nameReadRefusal?_of_ne h, if_pos hfit]

theorem readRegisterAt_of_writeOnly (h : (s.params.regmap.entry name).access = .w) :
    readRegisterAt name w offset s = .refused (.readOfWriteOnly (s.params.regmap.entry name).addr.toNat) := by
  simp only [readRegisterAt, nameReadRefusal?, if_pos h]

theorem writeRegisterAt_byte_of_writable (h : (s.params.regmap.entry name).access ≠ .r)
    (hfit : offset + 1 ≤ (s.params.regmap.entry name).width.bytes) :
    writeRegisterAt name .w8 offset v s =
      protocolWriteByte ((s.params.regmap.entry name).addrAt offset) (lowByte v) s := by
  simp only [writeRegisterAt, nameWriteRefusal?_of_ne h, accessBytes, hfit, if_true]

theorem writeRegisterAt_word_of_writable (h : (s.params.regmap.entry name).access ≠ .r)
    (hfit : offset + 2 ≤ (s.params.regmap.entry name).width.bytes) :
    writeRegisterAt name .w16 offset v s = protocolWriteWord ((s.params.regmap.entry name).addrAt offset) v s := by
  simp only [writeRegisterAt, nameWriteRefusal?_of_ne h, accessBytes, hfit, if_true]

theorem writeRegisterAt_of_readOnly (h : (s.params.regmap.entry name).access = .r) :
    writeRegisterAt name w offset v s = .refused (.writeOfReadOnly (s.params.regmap.entry name).addr.toNat) := by
  simp only [writeRegisterAt, nameWriteRefusal?, if_pos h]

theorem readRegister_of_access (h : (s.params.regmap.entry name).width.access? = some w) :
    readRegister name s = readRegisterAt name w 0 s := by
  simp only [readRegister, h]

theorem writeRegister_of_access (h : (s.params.regmap.entry name).width.access? = some w) :
    writeRegister name v s = writeRegisterAt name w 0 v s := by
  simp only [writeRegister, h]

/-! An accessor is a protocol read of its register, then its request (R61). -/

theorem protocolRead_of_busRead {a : Byte} {x : RawValue} {u : State} (h : busRead w a s = .ok (x, u)) :
    protocolRead w a s = .next (u.returning (some x)) := by
  simp only [protocolRead, h]

/-- After its read an accessor does what its conversion does with the bytes read. -/
theorem reading_of_protocolRead {r : Reading} (hmode : (s.params.regmap.entry r.register).access ≠ .w)
    (h : protocolRead (s.params.format r.quantity).width (s.params.regmap.entry r.register).addr s = .next t) :
    ∃ x, t.ret = some x ∧ reading r s = exec (r.instr x.data1 x.data2) t := by
  obtain ⟨x, u, hread, rfl⟩ := protocolRead_next h
  exact ⟨x, rfl, by simp only [reading, nameReadRefusal?_of_ne hmode, hread]⟩

theorem protocolRead_word_ret {a : Byte} (h : protocolRead .w16 a s = .next t) :
    ∃ d1 d2, t.ret = some (.word (raw16 d1 d2)) := by
  obtain ⟨hff, h0, h1⟩ := protocolRead_word_next h
  rw [protocolRead_word_of_allowed hff h0 h1] at h
  cases h
  exact ⟨_, _, rfl⟩

theorem protocolRead_byte_ret {a : Byte} (h : protocolRead .w8 a s = .next t) : ∃ d, t.ret = some (.byte d) := by
  cases hr : readRefusal? s.params a.toNat with
  | none =>
    rw [protocolRead_byte_of_allowed hr] at h
    cases h
    exact ⟨_, rfl⟩
  | some r =>
    rw [protocolRead_byte_refused hr] at h
    cases h

/-- An accessor whose quantity is a word makes its request with the two bytes of the word read. -/
theorem reading_of_readWord {r : Reading} (hmode : (s.params.regmap.entry r.register).access ≠ .w)
    (hwidth : (s.params.format r.quantity).width = .w16)
    (h : protocolRead .w16 (s.params.regmap.entry r.register).addr s = .next t) :
    ∃ d1 d2, t.ret = some (.word (raw16 d1 d2)) ∧ reading r s = exec (r.instr d1 d2) t := by
  obtain ⟨d1, d2, hret⟩ := protocolRead_word_ret h
  obtain ⟨x, hx, hexec⟩ := reading_of_protocolRead hmode (by rwa [hwidth])
  obtain rfl : x = .word (raw16 d1 d2) := Option.some.inj (hx.symm.trans hret)
  rw [RawValue.data1, RawValue.data2, highByte_raw16, lowByte_raw16] at hexec
  exact ⟨d1, d2, hret, hexec⟩

/-- An accessor whose quantity is a byte makes its request with the byte read. -/
theorem reading_of_readByte {r : Reading} (hmode : (s.params.regmap.entry r.register).access ≠ .w)
    (hwidth : (s.params.format r.quantity).width = .w8)
    (h : protocolRead .w8 (s.params.regmap.entry r.register).addr s = .next t) :
    ∃ d, t.ret = some (.byte d) ∧ reading r s = exec (r.instr d 0) t := by
  obtain ⟨d, hret⟩ := protocolRead_byte_ret h
  obtain ⟨x, hx, hexec⟩ := reading_of_protocolRead hmode (by rwa [hwidth])
  obtain rfl : x = .byte d := Option.some.inj (hx.symm.trans hret)
  exact ⟨d, hret, hexec⟩

/-- R61, R68: the voltage accessor answers the negated voltage of the word it read. -/
theorem reading_voltage (hmode : (s.params.regmap.entry .voltage).access ≠ .w)
    (hff : (s.params.regmap.entry .voltage).addr ≠ 0xFF)
    (h0 : readRefusal? s.params (s.params.regmap.entry .voltage).addr.toNat = none)
    (h1 : readRefusal? s.params ((s.params.regmap.entry .voltage).addr.toNat + 1) = none) :
    ∃ (w : Word16) (n : Nat), reading .voltage s = .next { s with
      ret := some (.word w)
      draws := n
      bus := s.bus ++ [readFrame s (s.params.regmap.entry .voltage).addr [highByte w, lowByte w]]
      rsp := some (.num (NumVal.scale s.params.numFormat w.toInt (5 / 32768)).neg) } := by
  obtain ⟨d1, d2, n, hread⟩ := wordReadIsBigEndian s _ hff h0 h1
  obtain ⟨c1, c2, hret, hexec⟩ := reading_of_readWord (r := .voltage) hmode rfl hread
  refine ⟨raw16 d1 d2, n, hexec.trans ?_⟩
  obtain hw : raw16 d1 d2 = raw16 c1 c2 := RawValue.word.inj (Option.some.inj hret)
  rw [highByte_raw16, lowByte_raw16, hw]
  exact voltageReadingResult _ c1 c2

/-! With admitted parameters every accessor of R46 answers. -/

theorem accessBytes_of_access? {x : RegWidth} (h : x.access? = some w) : accessBytes w = x.bytes := by
  cases x <;> cases h <;> rfl

/-- The registers R46 lists an accessor of the whole for. -/
def wholeRegisters : List RegName :=
  [.activeRelativeCapacity, .standbyRelativeCapacity, .chargeVoltage, .minimumChargeCurrent, .activeEmptyVoltage,
    .activeEmptyCurrent, .senseResistorPrime, .senseResistorGain, .factoryGain]

/-- R41, R46: each of them has a primitive. -/
theorem entry_access? {p : Params} (h : p.wellFormed = true) :
    ∀ n ∈ wholeRegisters, ∃ w, (p.regmap.entry n).width.access? = some w := by
  have hwidths : p.regmap.fixedWidths = true := by
    simp only [Params.wellFormed, Params.regmapWellFormed, RegMap.fixedParts, Bool.and_eq_true] at h
    exact h.1.2.1.2.1.2
  simp only [RegMap.fixedWidths, Bool.and_eq_true, List.all_cons, beq_iff_eq, Option.isSome_iff_exists] at hwidths
  obtain ⟨⟨⟨⟨-, -, -, -, hactive, hstandby, -⟩, -⟩, hcharge, hmin, hempty, hcurrent, hprime, hgain, hfactory, -⟩, -⟩ :=
    hwidths
  simp only [wholeRegisters, List.forall_mem_cons]
  exact ⟨⟨_, congrArg RegWidth.access? hactive⟩, ⟨_, congrArg RegWidth.access? hstandby⟩, hcharge, hmin, hempty, hcurrent,
    hprime, hgain, hfactory, List.forall_mem_nil _⟩

theorem factoryGain_access {p : Params} (h : p.wellFormed = true) : (p.regmap.entry .factoryGain).access = .r := by
  obtain ⟨-, -, hmodes, -, -⟩ := wellFormed_map h
  simp only [RegMap.fixedModes, Bool.and_eq_true, beq_iff_eq] at hmodes
  exact hmodes.1.2

/-- R61: the read of an accessor fits its register. -/
theorem reading_fits {p : Params} (h : p.wellFormed = true) (r : Reading) :
    accessBytes (p.format r.quantity).width ≤ (p.regmap.entry r.register).width.bytes := by
  obtain ⟨-, -, -, hfit, -⟩ := wellFormed_map h
  simp only [Params.readsFit, List.all_eq_true, decide_eq_true_eq] at hfit
  exact hfit (r.register, r.quantity) (by cases r <;> decide)

theorem addrAt_zero (e : RegEntry) : e.addrAt 0 = e.addr := by
  simp [RegEntry.addrAt]

/-- With an admitted sense resistance the request of an accessor answers. -/
theorem exec_reading_instr_answers (hr : NumVal.admissible s.params.numFormat s.rsns = true) (r : Reading) (d1 d2 : Byte) :
    ∃ t, exec (r.instr d1 d2) s = .next t := by
  obtain ⟨v, hv⟩ := Option.isSome_iff_exists.mp (convert?_isSome hr r.quantity (operandOf s r.quantity d1 d2))
  obtain heq | heq := exec_reading_instr r d1 d2 s
  · exact ⟨_, heq.trans (conversion_of_some hv)⟩
  · exact ⟨_, heq.trans (negatedConversion_of_some hv)⟩

theorem reading_answers (h : s.params.wellFormed = true) (hr : NumVal.admissible s.params.numFormat s.rsns = true)
    (r : Reading) : ∃ t, reading r s = .next t := by
  have hname : r.register ≠ .functionCommand := by cases r <;> exact nofun
  have hmode := (entry_access h r.register).2 hname
  obtain ⟨x, u, hread⟩ := busRead_entry h hname hmode (offset := 0) (by rw [Nat.zero_add]; exact reading_fits h r)
  rw [addrAt_zero] at hread
  obtain ⟨y, -, hexec⟩ := reading_of_protocolRead hmode (protocolRead_of_busRead hread)
  obtain ⟨hrsns, -, hparams, -⟩ := busRead_sameConfig hread
  rw [← hrsns, ← hparams] at hr
  obtain ⟨t, ht⟩ := exec_reading_instr_answers (s := u.returning (some x)) hr r y.data1 y.data2
  exact ⟨t, hexec.trans ht⟩

/-- Every register with a primitive but the function-command register is read whole by its name. -/
theorem readRegister_answers (h : s.params.wellFormed = true) (hn : name ≠ .functionCommand)
    (hw : ∃ w, (s.params.regmap.entry name).width.access? = some w) : ∃ t, readRegister name s = .next t := by
  obtain ⟨w, hw⟩ := hw
  rw [readRegister_of_access hw]
  exact readRegisterAt_entry h hn ((entry_access h name).2 hn) (by rw [Nat.zero_add, accessBytes_of_access? hw])

/-- A read/write register is never the function-command register nor read-only. -/
theorem readWrite_writable (h : s.params.wellFormed = true) (hn : name ∈ RegName.readWrite) :
    name ≠ .functionCommand ∧ (s.params.regmap.entry name).access ≠ .r := by
  refine ⟨fun hc => by subst hc; revert hn; decide, ?_⟩
  rw [(entry_access h name).1 hn]
  exact nofun

/-- A read/write register with a primitive is written whole by its name. -/
theorem writeRegister_answers (h : s.params.wellFormed = true) (hn : name ∈ RegName.readWrite)
    (hw : ∃ w, (s.params.regmap.entry name).width.access? = some w) (v : Word16) :
    ∃ t, writeRegister name v s = .next t := by
  obtain ⟨w, hw⟩ := hw
  obtain ⟨hne, hmode⟩ := readWrite_writable h hn
  rw [writeRegister_of_access hw]
  exact writeRegisterAt_entry h hne hmode (by rw [Nat.zero_add, accessBytes_of_access? hw]) v

/-- Settles O45: the accessors one by one, the names in general, and the answers with admitted parameters. -/
theorem accessorsReadOneRegister : Obligations.AccessorsReadOneRegister := by
  intro s
  refine ⟨?_, ?_, ?_, fun h => ⟨fun hr r => reading_answers h hr r, fun name hname => ?_, fun name hname v => ?_,
    fun v => ?_, fun offset v ho => ⟨?_, ?_⟩⟩⟩
  · rintro e rfl hmode hff h0 h1
    exact reading_voltage hmode hff h0 h1
  · have haccessor (r : Reading) (e : RegEntry) (he : s.params.regmap.entry r.register = e) (hmode : e.access ≠ .w) :
        ((s.params.format r.quantity).width = .w16 → ∀ t, perform (.readWord e.addr) s = .next t →
          ∃ d1 d2, t.ret = some (.word (raw16 d1 d2)) ∧ perform (.reading r) s = exec (r.instr d1 d2) t) ∧
        ((s.params.format r.quantity).width = .w8 → ∀ t, perform (.readByte e.addr) s = .next t →
          ∃ d1, t.ret = some (.byte d1) ∧ perform (.reading r) s = exec (r.instr d1 0) t) := by
      subst he
      exact ⟨fun hwidth t h => reading_of_readWord hmode hwidth h, fun hwidth t h => reading_of_readByte hmode hwidth h⟩
    simp only [List.forall_mem_cons]
    exact ⟨haccessor .voltage, haccessor .current, haccessor .temperature, haccessor .senseVoltage,
      haccessor .activeAbsoluteCapacity, haccessor .standbyAbsoluteCapacity, List.forall_mem_nil _⟩
  · rintro name offset v e a rfl rfl
    refine ⟨fun hfit => ⟨fun hmode => readRegisterAt_of_readable hmode hfit,
        fun hmode => writeRegisterAt_byte_of_writable hmode hfit⟩,
      fun hfit => ⟨fun hmode => readRegisterAt_of_readable hmode hfit,
        fun hmode => writeRegisterAt_word_of_writable hmode hfit⟩,
      fun width => ⟨readRegisterAt_of_writeOnly, writeRegisterAt_of_readOnly⟩, fun width hwidth => ?_⟩
    have haccess : (s.params.regmap.entry name).width.access? = some width := by
      obtain ⟨hw, rfl⟩ | ⟨hw, rfl⟩ := hwidth <;> rw [hw] <;> rfl
    exact ⟨readRegister_of_access haccess, writeRegister_of_access haccess⟩
  · exact readRegister_answers h (by rintro rfl; revert hname; decide) (entry_access? h name hname)
  · have hsub : name ∈ RegName.readWrite ∧ name ∈ wholeRegisters := by
      revert name
      decide
    obtain ⟨hrw, hwhole⟩ := hsub
    exact writeRegister_answers h hrw (entry_access? h name hwhole) v
  · obtain ⟨w, hw⟩ := entry_access? h .factoryGain (by decide)
    exact (writeRegister_of_access hw).trans (writeRegisterAt_of_readOnly (factoryGain_access h))
  · have hne : RegName.userEeprom ≠ .functionCommand := nofun
    exact readRegisterAt_entry h hne ((entry_access h _).2 hne) ho
  · obtain ⟨hne, hmode⟩ := readWrite_writable (s := s) h (name := .userEeprom) (by decide)
    exact writeRegisterAt_entry h hne hmode ho v

end Sys2Proof.Machine
end

section
/-!
PROOF. What a request's answer depends on (spec/00_scope.md R3, spec/20_memory.md R47).
-/
namespace Sys2Proof.Machine

variable {s t : State}

/-- In `s` and in `t` the operation drives the response port with one response and does nothing else, or stops alike. -/
def AnswersAlike (op : State → Host.Outcome State Fault Refusal) (s t : State) : Prop :=
  (∃ r, op s = .next (s.respond r) ∧ op t = .next (t.respond r)) ∨ ∃ x, op s = .refused x ∧ op t = .refused x

/-- The operand and the value of a conversion read the configuration alone. -/
theorem convert?_operandOf_sameConfig (h : s.sameConfig t) (q : Quantity) (d1 d2 : Byte) :
    convert? s q (operandOf s q d1 d2) = convert? t q (operandOf t q d1 d2) := by
  obtain ⟨hrsns, -, hparams, -⟩ := h
  rw [convert?, convert?, operandOf, operandOf, hrsns, hparams]

theorem conversion_answersAlike (h : s.sameConfig t) (q : Quantity) (d1 d2 : Byte) :
    AnswersAlike (conversion q d1 d2) s t := by
  have hvalue := convert?_operandOf_sameConfig h q d1 d2
  cases hv : convert? s q (operandOf s q d1 d2) with
  | some v => exact .inl ⟨_, conversion_of_some hv, conversion_of_some (hvalue ▸ hv)⟩
  | none => exact .inr ⟨_, by rw [conversion, hv], by rw [conversion, ← hvalue, hv]⟩

theorem negatedConversion_answersAlike (h : s.sameConfig t) (q : Quantity) (d1 d2 : Byte) :
    AnswersAlike (negatedConversion q d1 d2) s t := by
  have hvalue := convert?_operandOf_sameConfig h q d1 d2
  cases hv : convert? s q (operandOf s q d1 d2) with
  | some v => exact .inl ⟨_, negatedConversion_of_some hv, negatedConversion_of_some (hvalue ▸ hv)⟩
  | none => exact .inr ⟨_, by rw [negatedConversion, hv], by rw [negatedConversion, ← hvalue, hv]⟩

/-- A decoder's table is one of the parameters'. -/
theorem decodeView_answersAlike (h : s.sameConfig t) (table : Params → FieldTable) (b : Byte) :
    AnswersAlike (fun u => decodeView (table u.params) b u) s t := by
  obtain ⟨-, -, hparams, -⟩ := h
  exact .inl ⟨_, rfl, by rw [hparams]; rfl⟩

/-- Every instruction of the operation map is a conversion, RVOLT or a decoder. -/
theorem exec_answersAlike (h : s.sameConfig t) {o d1 d2 : Byte} {i : Instr} (hi : (o, i) ∈ operationMap d1 d2) :
    AnswersAlike (exec i) s t := by
  simp only [operationMap, List.mem_cons, Prod.mk.injEq, List.not_mem_nil, or_false] at hi
  obtain ⟨-, rfl⟩ | ⟨-, rfl⟩ | ⟨-, rfl⟩ | ⟨-, rfl⟩ | ⟨-, rfl⟩ | ⟨-, rfl⟩ | ⟨-, rfl⟩ | ⟨-, rfl⟩ | ⟨-, rfl⟩ | ⟨-, rfl⟩ |
    ⟨-, rfl⟩ | ⟨-, rfl⟩ | ⟨-, rfl⟩ | ⟨-, rfl⟩ := hi
  · exact conversion_answersAlike h .volt d1 d2
  · exact negatedConversion_answersAlike h .volt d1 d2
  · exact conversion_answersAlike h .temp d1 d2
  · exact conversion_answersAlike h .curr d1 d2
  · exact conversion_answersAlike h .iavg d1 d2
  · exact conversion_answersAlike h .acr d1 d2
  · exact conversion_answersAlike h .acrl d1 d2
  · exact conversion_answersAlike h .ab d1 d2
  · exact conversion_answersAlike h .acap d1 d2
  · exact conversion_answersAlike h .vsns d1 d2
  · exact decodeView_answersAlike h Params.statusFields d1
  · exact decodeView_answersAlike h Params.controlFields d1
  · exact decodeView_answersAlike h Params.sfrFields d1
  · exact decodeView_answersAlike h Params.eepromFields d1

/-- Settles O47: a request that decodes runs an instruction of the operation map, any other is answered `VALID = 0`. -/
theorem responseDependsOnRequestAndConfiguration : Obligations.ResponseDependsOnRequestAndConfiguration := by
  intro req s t h
  change AnswersAlike (request req) s t
  cases hreq : decodeRequest req with
  | ok i =>
    have halike := exec_answersAlike h (decodeRequest_eq_ok_iff.mp hreq)
    rwa [AnswersAlike, request_of_decode_ok hreq, request_of_decode_ok hreq]
  | error e => exact .inl ⟨.invalid, request_of_decode_error hreq s, request_of_decode_error hreq t⟩

/-- Settles O48: an answered request leaves the configuration, on which alone the next response depends. -/
theorem requestOrderDoesNotMatter : Obligations.RequestOrderDoesNotMatter := by
  intro q1 q2 s s1 h1 r
  obtain ⟨x, hs1, hs⟩ | ⟨x, hs1, hs⟩ := responseDependsOnRequestAndConfiguration q2 s1 s (request_sameConfig h1)
  · rw [hs1, hs]
    exact ⟨fun ⟨_, ht, hr⟩ => ⟨_, rfl, by cases ht; exact hr⟩, fun ⟨_, ht, hr⟩ => ⟨_, rfl, by cases ht; exact hr⟩⟩
  · rw [hs1, hs]

end Sys2Proof.Machine
end

section
/-!
PROOF. Construction and the state after reset (spec/70_reset_and_hazards.md R125, R126; spec/60_exceptions.md R120).
-/
namespace Sys2Proof.Machine

/-- What construction gives, before anything has happened to the instance. -/
def constructed (addr : BitVec 7) (rsns mho : NumVal) (p : Params) : State where
  rsns := rsns
  rsnsMho := mho
  params := p
  deviceAddr := addr
  mem := []
  inputs := []
  rsp := none
  ret := none
  bus := []
  chipUnsettled := false
  draws := 0

theorem construct_of_reciprocal {p : Params} {rsns mho : NumVal} (hp : p.wellFormed = true)
    (h : NumVal.reciprocal? p.numFormat rsns = some mho) (addr : BitVec 7) :
    construct addr rsns p = .next (constructed addr rsns mho p) := by
  rw [construct, if_pos hp, h]
  rfl

theorem construct_of_no_reciprocal {p : Params} {rsns : NumVal} (hp : p.wellFormed = true)
    (h : NumVal.reciprocal? p.numFormat rsns = none) (addr : BitVec 7) :
    construct addr rsns p = .refused .senseResistorNotAdmitted := by
  rw [construct, if_pos hp, h]

/-- If construction answers, its parameters were admitted and its sense resistance has a reciprocal. -/
theorem construct_next {addr : BitVec 7} {rsns : NumVal} {p : Params} {s : State} (h : construct addr rsns p = .next s) :
    p.wellFormed = true ∧ ∃ mho, NumVal.reciprocal? p.numFormat rsns = some mho ∧ s = constructed addr rsns mho p := by
  unfold construct at h
  split at h
  · split at h
    · cases h
    · cases h
      exact ⟨‹_›, _, ‹_›, rfl⟩
  · cases h

/-- Settles O55: the reciprocal exists exactly by an admitted sense resistance. -/
theorem constructionSetsConfiguration : Obligations.ConstructionSetsConfiguration := by
  intro addr rsns p
  have hsome := NumVal.reciprocal?_isSome p.numFormat rsns
  refine ⟨fun hp => ⟨fun hr => ?_, fun hr => ?_⟩, fun hp => ?_⟩
  · obtain ⟨mho, hmho⟩ := Option.isSome_iff_exists.mp (hsome.trans hr)
    exact ⟨mho, hmho, construct_of_reciprocal hp hmho addr⟩
  · exact construct_of_no_reciprocal hp (Option.isSome_eq_false_iff.mp (hsome.trans hr) |> Option.isNone_iff_eq_none.mp) addr
  · rw [construct, if_neg (by rw [hp]; exact Bool.false_ne_true)]

/-- Settles O56: construction checks what the invariant says of the configuration, and holds no byte. -/
theorem constructedInstanceMeetsInvariant : Obligations.ConstructedInstanceMeetsInvariant := by
  intro addr rsns p s h
  obtain ⟨hp, mho, hmho, rfl⟩ := construct_next h
  have hr : NumVal.admissible p.numFormat rsns = true := by
    rw [← NumVal.reciprocal?_isSome, hmho, Option.isSome_some]
  exact ⟨⟨hp, hr, hmho, ⟨.nil, nofun⟩, nofun, fun _ => rfl⟩, rfl⟩

/-- Settles O57: the default parameters are admitted, and the reciprocal of 1/50 is 50. -/
theorem resetIsTheScenarioInstance : Obligations.ResetIsTheScenarioInstance := by
  have hp : Params.default.wellFormed = true := by decide
  have hmho : NumVal.reciprocal? Params.default.numFormat (.exact (1 / 50)) = some (.exact 50) := by decide +kernel
  have hrsns : (1 / 50 : Rat) = mkRat 1 50 := by decide +kernel
  unfold Obligations.ResetIsTheScenarioInstance
  rw [construct_of_reciprocal hp hmho, hrsns]
  rfl

/-- Settles O51: the state after reset is a constructed instance. -/
theorem resetMeetsInstanceInvariant : Obligations.ResetMeetsInstanceInvariant :=
  (constructedInstanceMeetsInvariant _ _ _ _ resetIsTheScenarioInstance).1

/-- The admitted sense resistances in exact arithmetic. -/
theorem admissible_exact {r : NumVal} (h : NumVal.admissible .exact r = true) : ∃ q : Rat, q ≠ 0 ∧ r = .exact q := by
  cases r with
  | exact q => exact ⟨q, Rat.num_ne_zero.mp (bne_iff_ne.mp h), rfl⟩
  | b32 x => cases h
  | b64 x => cases h

/-- Settles O54: the cached value is `1 / RSNS`, and `RSNS` is not 0. -/
theorem cachedReciprocalTimesSenseIsOne : Obligations.CachedReciprocalTimesSenseIsOne := by
  intro s hs hfmt
  have hadmitted := hs.rsns_admitted
  have hmho := hs.mho_reciprocal
  rw [hfmt] at hadmitted hmho
  obtain ⟨r, hr0, hr⟩ := admissible_exact hadmitted
  obtain ⟨-, -, hquot⟩ := exactArithmeticIsRational
  rw [hr] at hmho
  have hcached : s.rsnsMho = .exact (1 / r) := (Option.some.inj ((hquot 1 r hr0).symm.trans hmho)).symm
  exact ⟨r, 1 / r, hr, hcached, one_div_mul_cancel hr0⟩

end Sys2Proof.Machine
end

section
/-!
PROOF. How an instruction's word is run (spec/30_encoding.md R50, R58; spec/20_memory.md R47).
-/
namespace Sys2Proof.Machine

variable {s : State}

theorem step_cons {c : HostCall} {rest : List HostCall} (h : s.inputs = c :: rest) :
    step s = perform c { s with inputs := rest } := by
  simp only [step, h]

/-- A call that presents a word that decodes runs the word's instruction. -/
theorem perform_callOf {w : CodeWord} {i : Instr} (h : decode w = .ok i) (s : State) : perform (callOf w) s = exec i s := by
  cases w with
  | request req => exact request_of_decode_ok h s
  | command cmd => exact command_of_decode_ok h s

/-- Settles O58: the step takes the call that presents the word. -/
theorem stepRunsDecodedInstruction : Obligations.StepRunsDecodedInstruction := by
  intro s w rest i hs hw
  rw [step_cons hs, perform_callOf hw]

theorem decode_tableWord {nbits w : Nat} {i : Instr} (h : decodeTableWord nbits w = some i) :
    decode (tableWord nbits w) = .ok i := by
  unfold decodeTableWord at h
  cases hd : decode (tableWord nbits w) with
  | ok j =>
    rw [hd] at h
    cases h
    rfl
  | error e =>
    rw [hd] at h
    cases h

/-- Settles O59: the word placed stands first among the pending calls. -/
theorem fetchWordIsRunNext : Obligations.FetchWordIsRunNext := by
  intro s nbits w i h
  exact stepRunsDecodedInstruction (s.withFetchWord nbits w) _ s.inputs i rfl (decode_tableWord h)

/-- Settles O60: there is no call to take. -/
theorem idleStepChangesNothing : Obligations.IdleStepChangesNothing := by
  intro s h
  simp only [step, h]

end Sys2Proof.Machine
end

section
/-!
PROOF. Rounding a magnitude in a floating format (spec/40_conversion.md R66): it is to nearest, ties to even, and infinite
from half a unit past the largest finite magnitude.
-/
namespace Sys2Proof

variable (f : FloatFormat)

/-- A power of two as units of the last place of its own exponent. -/
theorem FloatFormat.zpow_eq_units (e : Int) : (2 : ℚ) ^ e = 2 ^ f.fracBits * 2 ^ (e - f.fracBits) := by
  rw [← zpow_natCast, ← zpow_add₀ (by norm_num)]
  congr 1
  omega

theorem FloatFormat.zpow_succ_eq_units (e : Int) : (2 : ℚ) ^ (e + 1) = 2 ^ (f.fracBits + 1) * 2 ^ (e - f.fracBits) := by
  rw [zpow_add_one₀ (by norm_num), f.zpow_eq_units, pow_succ]
  ring

theorem FloatFormat.ulps_lt {e : Int} {n : Nat} (hn : n < 2 ^ (f.fracBits + 1)) : f.ulps e n < 2 ^ (e + 1) := by
  rw [FloatFormat.ulps, f.zpow_succ_eq_units]
  exact mul_lt_mul_of_pos_right (by exact_mod_cast hn) (by positivity)

/-- Seen from the exponent `e`, a magnitude of the format is a whole number of units, or it is below `2 ^ e`. -/
theorem FloatFormat.ulps_units_or_lt (e : Int) {e' : Int} {n' : Nat} (hn' : n' < 2 ^ (f.fracBits + 1)) :
    (∃ c : ℤ, f.ulps e' n' = c * (2 : ℚ) ^ (e - f.fracBits)) ∨ e' < e ∧ f.ulps e' n' < 2 ^ e := by
  rcases le_or_gt e e' with h | h
  · obtain ⟨j, rfl⟩ : ∃ j : Nat, e' = e + j := ⟨(e' - e).toNat, by omega⟩
    refine .inl ⟨n' * 2 ^ j, ?_⟩
    rw [FloatFormat.ulps, show e + j - f.fracBits = j + (e - f.fracBits) by ring, zpow_add₀ (by norm_num), zpow_natCast]
    push_cast
    ring
  · exact .inr ⟨h, (f.ulps_lt hn').trans_le (zpow_le_zpow_right₀ (by norm_num) (by omega))⟩

theorem FloatFormat.encode_fin_false (q : ℚ) : f.encode (.fin false q) = f.roundMagnitude q := Nat.zero_add _

theorem FloatFormat.datum_encode_zero (hE : 0 < f.expBits) (neg : Bool) : f.datum (f.encode (.fin neg 0)) = .fin neg 0 := by
  have hones : 0 < f.expOnes := Nat.sub_pos_of_lt (Nat.one_lt_two_pow hE.ne')
  have hexact := f.datum_encode_ulps hE neg (e := f.minExp) (n := 0) le_rfl (by positivity) (.inl rfl) (by simpa using hones)
  simpa [FloatFormat.ulps] using hexact

/-- Rounding is to nearest, and to the even pattern where another magnitude of the format is as near. -/
theorem FloatFormat.roundMagnitude_nearest (hE : 0 < f.expBits) (hF : 0 < f.fracBits) {q m m' : ℚ} {y : Nat} (hq : 0 ≤ q)
    (hm : f.datum (f.roundMagnitude q) = .fin false m) (hm' : f.datum y = .fin false m') :
    |m - q| ≤ |m' - q| ∧ (m' ≠ m → |m - q| = |m' - q| → f.roundMagnitude q % 2 = 0) := by
  obtain ⟨e', n', he', hn', -, rfl, -, -⟩ := f.datum_fin hm'
  rcases hq.eq_or_lt with rfl | hq
  · rw [← f.encode_fin_false, f.datum_encode_zero hE] at hm
    cases hm
    rw [f.roundMagnitude_zero, sub_zero, abs_zero]
    exact ⟨abs_nonneg _, fun _ _ => rfl⟩
  · obtain ⟨e, n, he, hn, hc, -, hnear, htie, hround⟩ := f.roundMagnitude_spec hq
    rw [← f.encode_fin_false, FloatFormat.encode, hround, f.datum_ulps hE false he hn (hc.imp id And.left)] at hm
    split at hm
    · rename_i hfit
      cases hm
      rcases f.ulps_units_or_lt e hn' with ⟨c, hunits⟩ | ⟨hee, hlt⟩
      · rw [hunits]
        refine ⟨hnear c, fun hne heq => ?_⟩
        have heven : n % 2 = 0 := htie c (fun hcn => hne (by rw [hcn, FloatFormat.ulps, Int.cast_natCast])) heq
        have hpow : 2 ^ f.fracBits % 2 = 0 := Nat.mod_eq_zero_of_dvd (dvd_pow_self 2 hF.ne')
        rw [hround, min_eq_left hfit.le, Nat.add_mod, Nat.mul_mod, hpow, heven, Nat.mul_zero]
      · -- the power of two between the lower magnitude and `q` is nearer than it
        have hle : (2 : ℚ) ^ e ≤ q := (hc.resolve_left (by omega)).2
        have hbetween := hnear (2 ^ f.fracBits)
        push_cast at hbetween
        rw [← f.zpow_eq_units, abs_of_nonpos (sub_nonpos.mpr hle)] at hbetween
        have hstrict : |f.ulps e n - q| < |f.ulps e' n' - q| := by
          rw [abs_of_neg (sub_neg.mpr (hlt.trans_le hle))]
          linarith
        exact ⟨hstrict.le, fun _ heq => absurd heq hstrict.ne⟩
    · cases hm

/-- Settles O11, for each of the two formats. -/
theorem roundingIsToNearestTiesToEven : Obligations.RoundingIsToNearestTiesToEven := by
  rintro f (rfl | rfl) q m m' y hq hm hm'
  · exact binary32.roundMagnitude_nearest (by decide) (by decide) hq hm hm'
  · exact binary64.roundMagnitude_nearest (by decide) (by decide) hq hm hm'

/-- The exponent of the largest finite magnitudes. -/
def FloatFormat.maxExp (f : FloatFormat) : Int := f.minExp + f.expOnes - 2

/-- Among the magnitudes of the largest exponent, those of half a unit past the largest finite one, and no lower ones, are
rounded up to the power of two above: at the half itself because the largest finite pattern is odd. -/
theorem FloatFormat.rounds_up_iff {u q : ℚ} {n : Nat} (hu : 0 < u) (hn : n ≤ 2 ^ (f.fracBits + 1))
    (hq : q < 2 ^ (f.fracBits + 1) * u) (hnear : ∀ c : ℤ, |n * u - q| ≤ |c * u - q|)
    (htie : ∀ c : ℤ, c ≠ n → |n * u - q| = |c * u - q| → n % 2 = 0) :
    n = 2 ^ (f.fracBits + 1) ↔ 2 ^ (f.fracBits + 1) * u - u / 2 ≤ q := by
  constructor
  · rintro rfl
    have hbelow := hnear (2 ^ (f.fracBits + 1) - 1)
    push_cast at hbelow
    rw [abs_of_pos (by linarith), sub_mul, one_mul] at hbelow
    rcases abs_cases ((2 : ℚ) ^ (f.fracBits + 1) * u - u - q) with ⟨h, -⟩ | ⟨h, -⟩ <;> linarith
  · intro hhalf
    by_contra hne
    have hn1 : n + 1 ≤ 2 ^ (f.fracBits + 1) := by omega
    have hnu : ((n : ℚ) + 1) * u ≤ 2 ^ (f.fracBits + 1) * u :=
      mul_le_mul_of_nonneg_right (by exact_mod_cast hn1) hu.le
    have habove := hnear (2 ^ (f.fracBits + 1))
    push_cast at habove
    rw [abs_of_neg (by linarith), abs_of_pos (by linarith)] at habove
    have hlast : ((n : ℚ) + 1) * u = 2 ^ (f.fracBits + 1) * u := by linarith
    have hodd : n + 1 = 2 ^ (f.fracBits + 1) := by exact_mod_cast mul_right_cancel₀ hu.ne' hlast
    have heven : n % 2 = 0 := by
      refine htie (2 ^ (f.fracBits + 1)) (by exact_mod_cast Ne.symm hne) ?_
      push_cast
      rw [abs_of_neg (by linarith), abs_of_pos (by linarith)]
      linarith
    have hpow : 2 ^ (f.fracBits + 1) % 2 = 0 := Nat.mod_eq_zero_of_dvd (dvd_pow_self 2 (Nat.succ_ne_zero _))
    omega

/-- A magnitude becomes infinite exactly from half a unit past the largest finite one. -/
theorem FloatFormat.roundMagnitude_inf_iff (hE : 1 < f.expBits) {q : ℚ} (hq : 0 ≤ q) :
    f.datum (f.roundMagnitude q) = .inf false ↔
      (2 : ℚ) ^ (f.maxExp + 1) - 2 ^ (f.maxExp - f.fracBits - 1) ≤ q := by
  have h4 : 2 ^ 2 ≤ 2 ^ f.expBits := Nat.pow_le_pow_right (by norm_num) hE
  have hones : 3 ≤ f.expOnes := by unfold FloatFormat.expOnes; omega
  have hmax : f.maxExp = f.minExp + f.expOnes - 2 := rfl
  have hpow : 0 < 2 ^ f.fracBits := by positivity
  have hu : (0 : ℚ) < 2 ^ (f.maxExp - f.fracBits) := by positivity
  have hhalf : (2 : ℚ) ^ (f.maxExp - f.fracBits - 1) = 2 ^ (f.maxExp - f.fracBits) / 2 := by
    rw [zpow_sub_one₀ (by norm_num), div_eq_mul_inv]
  have hunit : (2 : ℚ) ^ (f.maxExp - f.fracBits) ≤ 2 ^ f.maxExp := zpow_le_zpow_right₀ (by norm_num) (by omega)
  have hdouble : (2 : ℚ) ^ (f.maxExp + 1) = 2 ^ f.maxExp * 2 := zpow_add_one₀ (by norm_num) _
  have hmaxpos : (0 : ℚ) < 2 ^ f.maxExp := by positivity
  rw [hhalf]
  rcases hq.eq_or_lt with rfl | hq
  · rw [← f.encode_fin_false, f.datum_encode_zero (by omega)]
    exact iff_of_false nofun (by linarith)
  · obtain ⟨e, n, he, hn, hc, hlt, hnear, htie, hround⟩ := f.roundMagnitude_spec hq
    have hinf : f.datum (f.roundMagnitude q) = .inf false ↔
        f.expOnes * 2 ^ f.fracBits ≤ (e - f.minExp).toNat * 2 ^ f.fracBits + n := by
      rw [← f.encode_fin_false, FloatFormat.encode, hround, f.datum_ulps (by omega) false he hn (hc.imp id And.left)]
      split
      · rename_i hfit
        exact iff_of_false nofun (by omega)
      · rename_i hfit
        exact iff_of_true rfl (by omega)
    rw [hinf]
    rw [pow_succ] at hn
    rcases lt_trichotomy e f.maxExp with h | rfl | h
    · refine iff_of_false ?_ ?_
      · have : ((e - f.minExp).toNat + 3) * 2 ^ f.fracBits ≤ f.expOnes * 2 ^ f.fracBits :=
          Nat.mul_le_mul_right _ (by omega)
        linarith
      · have : (2 : ℚ) ^ (e + 1) ≤ 2 ^ f.maxExp := zpow_le_zpow_right₀ (by norm_num) (by omega)
        linarith
    · have hone : f.expOnes * 2 ^ f.fracBits ≤ (f.maxExp - f.minExp).toNat * 2 ^ f.fracBits + n ↔
          n = 2 ^ (f.fracBits + 1) := by
        rw [show f.expOnes = (f.maxExp - f.minExp).toNat + 2 by omega, pow_succ, Nat.add_mul]
        omega
      rw [hone, f.zpow_succ_eq_units]
      exact f.rounds_up_iff hu (by rwa [pow_succ]) (by rwa [← f.zpow_succ_eq_units]) hnear htie
    · obtain ⟨hfull, hle⟩ := hc.resolve_left (by omega)
      refine iff_of_true ?_ ?_
      · have : f.expOnes * 2 ^ f.fracBits ≤ ((e - f.minExp).toNat + 1) * 2 ^ f.fracBits :=
          Nat.mul_le_mul_right _ (by omega)
        linarith
      · have : (2 : ℚ) ^ (f.maxExp + 1) ≤ 2 ^ e := zpow_le_zpow_right₀ (by norm_num) (by omega)
        linarith

/-- Settles O12: the largest finite exponents are 127 and 1023. -/
theorem roundingOverflowsPastLargestFinite : Obligations.RoundingOverflowsPastLargestFinite := by
  constructor
  · intro q hq
    rw [binary32.roundMagnitude_inf_iff (by decide) hq, show binary32.maxExp + 1 = (128 : Nat) by decide,
      show binary32.maxExp - binary32.fracBits - 1 = (103 : Nat) by decide, zpow_natCast, zpow_natCast]
  · intro q hq
    rw [binary64.roundMagnitude_inf_iff (by decide) hq, show binary64.maxExp + 1 = (1024 : Nat) by decide,
      show binary64.maxExp - binary64.fracBits - 1 = (970 : Nat) by decide, zpow_natCast, zpow_natCast]

end Sys2Proof
end

section
/-!
PROOF. The sign of a floating pattern, and which operations keep a pattern from being a NaN (spec/40_conversion.md R66, R81).
-/
namespace Sys2Proof

/-- The datum with the other sign; a NaN stays one. -/
def Datum.neg : Datum → Datum
  | .nan => .nan
  | .inf s => .inf !s
  | .fin s m => .fin (!s) m

/-- A datum that is no NaN; the magnitude of a finite one is not negative. -/
def Datum.IsNumber : Datum → Prop
  | .nan => False
  | .inf _ => True
  | .fin _ m => 0 ≤ m

theorem Datum.value?_neg (d : Datum) : d.neg.value? = d.value?.map fun x => -x := by
  cases d with
  | nan => rfl
  | inf s => rfl
  | fin s m => cases s <;> simp [Datum.neg, Datum.value?]

theorem Datum.IsNumber.ne_nan {d : Datum} (h : d.IsNumber) : d ≠ .nan := by
  rintro rfl
  exact h

theorem Datum.neg_mul (d e : Datum) : d.neg.mul e = (d.mul e).neg := by
  cases d <;> cases e <;> simp only [Datum.neg, Datum.mul, Bool.not_bne]
  all_goals split <;> rfl

theorem Datum.neg_div (d e : Datum) : d.neg.div e = (d.div e).neg := by
  cases d <;> cases e <;> simp only [Datum.neg, Datum.div, Bool.not_bne]
  split
  · split <;> rfl
  · rfl

/-- A product by a finite factor is a number, unless it is of an infinity by 0. -/
theorem Datum.IsNumber.mul {d : Datum} {t : Bool} {m : Rat} (hd : d.IsNumber) (hm : 0 ≤ m)
    (h : m ≠ 0 ∨ ∃ s n, d = .fin s n) : (d.mul (.fin t m)).IsNumber := by
  cases d with
  | nan => exact hd
  | inf s =>
    obtain hm0 | ⟨_, _, hfin⟩ := h
    · simp [Datum.mul, hm0, Datum.IsNumber]
    · cases hfin
  | fin s n => exact mul_nonneg hd hm

/-- A quotient by a finite number other than 0 is a number. -/
theorem Datum.IsNumber.div {d : Datum} {t : Bool} {m : Rat} (hd : d.IsNumber) (hm : 0 < m) :
    (d.div (.fin t m)).IsNumber := by
  cases d with
  | nan => exact hd
  | inf s => trivial
  | fin s n =>
    rw [Datum.div, if_neg hm.ne']
    exact div_nonneg hd hm.le

theorem Datum.div_one (d : Datum) : d.div (.fin false 1) = d := by
  cases d <;> simp [Datum.div]

variable {f : FloatFormat}

theorem FloatFormat.signBit_false : f.signBit false = 0 := rfl

theorem FloatFormat.signBit_true : f.signBit true = 2 ^ (f.expBits + f.fracBits) := rfl

/-- R66: unary minus of a sign bit and the pattern below it. -/
theorem FloatFormat.neg_signBit_add (b : Bool) {p : Nat} (hp : p < 2 ^ (f.expBits + f.fracBits)) :
    f.neg (f.signBit b + p) = f.signBit (!b) + p := by
  have hset : p ^^^ 2 ^ (f.expBits + f.fracBits) = 2 ^ (f.expBits + f.fracBits) + p := by
    have hor := Nat.two_pow_add_eq_or_of_lt hp 1
    rw [Nat.mul_one] at hor
    rw [hor]
    apply Nat.eq_of_testBit_eq
    intro j
    rw [Nat.testBit_xor, Nat.testBit_or, Nat.testBit_two_pow]
    by_cases hj : f.expBits + f.fracBits = j
    · subst hj
      simp [Nat.testBit_lt_two_pow hp]
    · simp [hj]
  cases b
  · rw [signBit_false, zero_add, FloatFormat.neg, hset, Bool.not_false, signBit_true]
  · rw [signBit_true, ← hset, FloatFormat.neg, Nat.xor_xor_cancel_right, Bool.not_true, signBit_false, zero_add]

/-- A pattern of the format's width is a sign bit and a pattern below it. -/
theorem FloatFormat.eq_signBit_add {x : Nat} (hx : x < 2 ^ (1 + (f.expBits + f.fracBits))) :
    ∃ b p, p < 2 ^ (f.expBits + f.fracBits) ∧ x = f.signBit b + p := by
  rw [pow_add, pow_one] at hx
  rcases Nat.lt_or_ge x (2 ^ (f.expBits + f.fracBits)) with h | h
  · exact ⟨false, x, h, by rw [signBit_false, zero_add]⟩
  · exact ⟨true, x - 2 ^ (f.expBits + f.fracBits), by omega, by rw [signBit_true]; omega⟩

theorem FloatFormat.neg_lt {x : Nat} (hx : x < 2 ^ (1 + (f.expBits + f.fracBits))) :
    f.neg x < 2 ^ (1 + (f.expBits + f.fracBits)) :=
  Nat.xor_lt_two_pow hx (Nat.pow_lt_pow_right (by norm_num) (by omega))

/-- A pattern's negation stands for the datum with the other sign. -/
theorem FloatFormat.datum_neg {x : Nat} (hx : x < 2 ^ (1 + (f.expBits + f.fracBits))) :
    f.datum (f.neg x) = (f.datum x).neg := by
  obtain ⟨b, p, hp, rfl⟩ := FloatFormat.eq_signBit_add hx
  rw [neg_signBit_add b hp, datum_signBit f _ hp, datum_signBit f _ hp]
  simp only
  split
  · split <;> rfl
  · split <;> rfl

theorem FloatFormat.infinity_lt : f.expOnes * 2 ^ f.fracBits < 2 ^ (f.expBits + f.fracBits) := by
  rw [pow_add]
  exact Nat.mul_lt_mul_of_pos_right (Nat.sub_lt (by positivity) one_pos) (by positivity)

/-- The encoding of a number with the other sign is the pattern's negation. -/
theorem FloatFormat.encode_neg {d : Datum} (h : d ≠ .nan) : f.encode d.neg = f.neg (f.encode d) := by
  cases d with
  | nan => exact absurd rfl h
  | inf s => exact (neg_signBit_add s infinity_lt).symm
  | fin s m => exact (neg_signBit_add s ((f.roundMagnitude_le m).trans_lt infinity_lt)).symm

/-- The pattern an operation gives for a NaN stands for one. -/
theorem FloatFormat.datum_nan (hF : 1 < f.fracBits) : f.datum f.nan = .nan := by
  have h4 : 2 ^ 2 ≤ 2 ^ f.fracBits := Nat.pow_le_pow_right (by norm_num) hF
  have hfrac : 1 + Config.nanPayload % (2 ^ f.fracBits - 1) < 2 ^ f.fracBits := by
    have := Nat.mod_lt Config.nanPayload (show 2 ^ f.fracBits - 1 > 0 by omega)
    omega
  have hlt : f.expOnes * 2 ^ f.fracBits + (1 + Config.nanPayload % (2 ^ f.fracBits - 1)) < 2 ^ (f.expBits + f.fracBits) := by
    have hones : (f.expOnes + 1) * 2 ^ f.fracBits = 2 ^ (f.expBits + f.fracBits) := by
      rw [FloatFormat.expOnes, Nat.sub_add_cancel Nat.one_le_two_pow, pow_add]
    linarith
  rw [FloatFormat.nan, Nat.add_assoc, datum_signBit f _ hlt]
  simp only
  rw [Nat.mul_comm, Nat.mul_add_div (by positivity), Nat.div_eq_of_lt hfrac, Nat.mul_add_mod, Nat.mod_eq_of_lt hfrac,
    if_pos (Nat.add_zero _), if_neg (by omega)]

/-- A pattern that is no NaN stands for a number. -/
theorem FloatFormat.datum_isNumber {x : Nat} (h : f.datum x ≠ .nan) : (f.datum x).IsNumber := by
  cases hd : f.datum x with
  | nan => exact h hd
  | inf s => trivial
  | fin s m =>
    obtain ⟨e, n, -, -, -, rfl, -, -⟩ := f.datum_fin hd
    exact mul_nonneg (Nat.cast_nonneg n) (by positivity)

/-- A number is encoded as no NaN. -/
theorem FloatFormat.datum_encode_ne_nan (hE : 0 < f.expBits) {d : Datum} (h : d.IsNumber) : f.datum (f.encode d) ≠ .nan := by
  cases d with
  | nan => exact h.elim
  | inf s =>
    rw [f.datum_encode_inf hE]
    exact nofun
  | fin s m =>
    obtain ⟨m', hfin, -⟩ | hinf := f.datum_encode_fin hE s h
    · rw [hfin]
      exact nofun
    · rw [hinf]
      exact nofun

/-- Encoding what a pattern stands for gives a pattern that stands for the same. -/
theorem FloatFormat.datum_encode_datum (hE : 0 < f.expBits) (hF : 1 < f.fracBits) {x : Nat}
    (hx : x < 2 ^ (1 + (f.expBits + f.fracBits))) : f.datum (f.encode (f.datum x)) = f.datum x := by
  cases hd : f.datum x with
  | nan => exact datum_nan hF
  | inf s => exact f.datum_encode_inf hE s
  | fin s m => rw [f.encode_datum hx hd, hd]

/-- A magnitude of few bits, its last of no lower place than a subnormal's and its first of no higher than the largest
finite's, is encoded exactly. -/
theorem FloatFormat.datum_encode_exact (hE : 0 < f.expBits) (neg : Bool) {n : Nat} {k : Int} (hn : n < 2 ^ (f.fracBits + 1))
    (hlow : f.minExp ≤ k + f.fracBits) (hhigh : k + f.fracBits + 2 ≤ f.minExp + f.expOnes) :
    f.datum (f.encode (.fin neg (n * 2 ^ k))) = .fin neg (n * 2 ^ k) := by
  rcases Nat.eq_zero_or_pos n with rfl | hpos
  · rw [Nat.cast_zero, zero_mul, f.datum_encode_zero hE]
  · -- shift the number left until it has its leading bit, or its last bit the lowest place
    have hlog : n.log2 ≤ f.fracBits := Nat.lt_succ_iff.mp ((Nat.log2_lt hpos.ne').mpr hn)
    set j := min (f.fracBits - n.log2) (k + f.fracBits - f.minExp).toNat with hj
    have hshift : n * 2 ^ j < 2 ^ (f.fracBits + 1) := by
      calc n * 2 ^ j < 2 ^ (n.log2 + 1) * 2 ^ j := Nat.mul_lt_mul_of_pos_right Nat.lt_log2_self (by positivity)
        _ = 2 ^ (n.log2 + 1 + j) := (pow_add _ _ _).symm
        _ ≤ 2 ^ (f.fracBits + 1) := Nat.pow_le_pow_right (by norm_num) (by omega)
    have hnormal : k + f.fracBits - j = f.minExp ∨ 2 ^ f.fracBits ≤ n * 2 ^ j := by
      by_cases hmin : f.fracBits - n.log2 ≤ (k + f.fracBits - f.minExp).toNat
      · refine .inr ?_
        calc 2 ^ f.fracBits = 2 ^ n.log2 * 2 ^ j := by rw [← pow_add]; congr 1; omega
          _ ≤ n * 2 ^ j := Nat.mul_le_mul_right _ (Nat.log2_self_le hpos.ne')
      · exact .inl (by omega)
    have heq : (n : ℚ) * 2 ^ k = f.ulps (k + f.fracBits - j) (n * 2 ^ j) := by
      rw [FloatFormat.ulps, show k + f.fracBits - j - f.fracBits = k - (j : ℤ) by ring, zpow_sub₀ (by norm_num),
        zpow_natCast]
      push_cast
      field_simp
    have hfit : (k + f.fracBits - j - f.minExp).toNat * 2 ^ f.fracBits + n * 2 ^ j < f.expOnes * 2 ^ f.fracBits := by
      have hle : ((k + f.fracBits - j - f.minExp).toNat + 2) * 2 ^ f.fracBits ≤ f.expOnes * 2 ^ f.fracBits :=
        Nat.mul_le_mul_right _ (by omega)
      rw [pow_succ] at hshift
      linarith
    rw [heq]
    exact f.datum_encode_ulps hE neg (by omega) hshift hnormal hfit

end Sys2Proof
end

section
/-!
PROOF. Conversions in the floating formats (spec/40_conversion.md R65 to R67, R77, R78, R81): one operation on patterns at a
time, for every format with room enough, then for the two of `NUMFMT`.
-/
namespace Sys2Proof

/-- A format in which the integers of 16 bits, and the voltages, are exact. -/
structure FloatFormat.Roomy (f : FloatFormat) : Prop where
  expBits_pos : 0 < f.expBits
  fracBits_ge : 18 ≤ f.fracBits
  integers    : f.fracBits + 2 ≤ f.minExp + f.expOnes
  voltages    : f.minExp + 15 ≤ f.fracBits

theorem binary32_roomy : binary32.Roomy := ⟨by decide, by decide, by decide, by decide⟩

theorem binary64_roomy : binary64.Roomy := ⟨by decide, by decide, by decide, by decide⟩

variable {f : FloatFormat}

theorem FloatFormat.Roomy.fracBits_gt (hf : f.Roomy) : 1 < f.fracBits := lt_of_lt_of_le (by norm_num) hf.fracBits_ge

theorem FloatFormat.Roomy.lt_units (hf : f.Roomy) {n : Nat} (hn : n < 2 ^ 19) : n < 2 ^ (f.fracBits + 1) :=
  hn.trans_le (Nat.pow_le_pow_right (by norm_num) (Nat.succ_le_succ hf.fracBits_ge))

/-- Every encoding fits the width of the format. -/
theorem FloatFormat.Roomy.encode_lt (hf : f.Roomy) (d : Datum) : f.encode d < 2 ^ (1 + (f.expBits + f.fracBits)) :=
  f.encode_lt hf.expBits_pos hf.fracBits_gt d

theorem FloatFormat.Roomy.ofRat_lt (hf : f.Roomy) (q : Rat) : f.ofRat q < 2 ^ (1 + (f.expBits + f.fracBits)) :=
  hf.encode_lt _

theorem FloatFormat.Roomy.mul_lt (hf : f.Roomy) (x y : Nat) : f.mul x y < 2 ^ (1 + (f.expBits + f.fracBits)) :=
  hf.encode_lt _

theorem FloatFormat.Roomy.div_lt (hf : f.Roomy) (x y : Nat) : f.div x y < 2 ^ (1 + (f.expBits + f.fracBits)) :=
  hf.encode_lt _

/-- A constant is the encoding of its sign and magnitude. -/
theorem FloatFormat.ofRat_eq (q : Rat) : f.ofRat q = f.encode (.fin (decide (q < 0)) |q|) := by
  have habs : mkRat q.num.natAbs q.den = |q| := by
    rw [Rat.mkRat_eq_divInt]
    exact (Rat.abs_def q).symm
  rw [FloatFormat.ofRat, habs]

/-- R66: an Int of at most 16 bits is represented exactly. -/
theorem FloatFormat.Roomy.datum_ofRat_int (hf : f.Roomy) {x : Int} (hx : x.natAbs ≤ 65535) :
    f.datum (f.ofRat x) = .fin (decide ((x : Rat) < 0)) |(x : Rat)| := by
  have hexact := f.datum_encode_exact hf.expBits_pos (decide ((x : Rat) < 0)) (k := 0)
    (hf.lt_units (show x.natAbs < 2 ^ 19 by omega)) (by have := hf.voltages; omega) (by have := hf.integers; omega)
  rwa [zpow_zero, mul_one, Nat.cast_natAbs, Int.cast_abs, ← FloatFormat.ofRat_eq] at hexact

/-- R67: a constant of few counts of `2 ^ -15` is represented exactly. -/
theorem FloatFormat.Roomy.datum_encode_voltage (hf : f.Roomy) (neg : Bool) {n : Nat} (hn : n < 2 ^ 19) :
    f.datum (f.encode (.fin neg (n / 32768))) = .fin neg (n / 32768) := by
  have hexact := f.datum_encode_exact hf.expBits_pos neg (k := -15) (hf.lt_units hn) (by have := hf.voltages; omega)
    (by have := hf.integers; omega)
  rwa [show (n : ℚ) * 2 ^ (-15 : ℤ) = n / 32768 by norm_num [div_eq_mul_inv]] at hexact

theorem FloatFormat.Roomy.datum_voltageFactor (hf : f.Roomy) : f.datum (f.ofRat (5 / 32768)) = .fin false (5 / 32768) := by
  have hexact := hf.datum_encode_voltage false (n := 5) (by norm_num)
  rw [FloatFormat.ofRat_eq, abs_of_pos (by norm_num), show decide ((5 / 32768 : ℚ) < 0) = false by norm_num]
  exact_mod_cast hexact

/-- R67: the product of a 16-bit Int and the voltage factor is exact. -/
theorem FloatFormat.Roomy.value_voltage (hf : f.Roomy) {x : Int} (hx : x.natAbs ≤ 65535) :
    (f.datum (f.mul (f.ofRat x) (f.ofRat (5 / 32768)))).value? = some ((x : ℚ) * (5 / 32768)) := by
  have hmag : |(x : ℚ)| * (5 / 32768) = ((x.natAbs * 5 : Nat) : ℚ) / 32768 := by
    push_cast [Nat.cast_natAbs]
    ring
  rw [FloatFormat.mul, hf.datum_ofRat_int hx, hf.datum_voltageFactor, Datum.mul, hmag,
    hf.datum_encode_voltage _ (by omega), ← hmag, Bool.bne_false, Datum.value?]
  rcases lt_or_ge (x : ℚ) 0 with h | h
  · rw [if_pos (decide_eq_true h), abs_of_neg h, neg_mul, neg_neg]
  · rw [if_neg (by simpa using h), abs_of_nonneg h]

/-- The constant of the negated rational is the pattern's negation. -/
theorem FloatFormat.ofRat_neg {q : Rat} (hq : q ≠ 0) : f.ofRat (-q) = f.neg (f.ofRat q) := by
  have hsign : decide (-q < 0) = !decide (q < 0) := by
    rcases hq.lt_or_gt with h | h
    · simp [h, h.le]
    · simp [h, h.le]
  rw [FloatFormat.ofRat_eq, FloatFormat.ofRat_eq, abs_neg, hsign]
  exact FloatFormat.encode_neg (d := .fin (decide (q < 0)) |q|) nofun

theorem FloatFormat.Roomy.datum_ofRat_isNumber (hf : f.Roomy) (q : Rat) : (f.datum (f.ofRat q)).IsNumber := by
  rw [FloatFormat.ofRat_eq]
  exact FloatFormat.datum_isNumber (FloatFormat.datum_encode_ne_nan hf.expBits_pos (abs_nonneg q))

/-- A pattern that stands for a rational is finite, with that rational's magnitude. -/
theorem Datum.eq_fin_of_value? {d : Datum} (hd : d.IsNumber) {c : Rat} (h : d.value? = some c) : ∃ s, d = .fin s |c| := by
  cases d with
  | nan => cases h
  | inf s => cases h
  | fin s m =>
    have hm : |m| = m := abs_of_nonneg hd
    refine ⟨s, ?_⟩
    cases s <;> cases h
    · rw [if_neg Bool.false_ne_true, hm]
    · rw [if_pos rfl, abs_neg, hm]

/-- R81: the product of an Int and a constant that is finite in the format is a number, where the constant is not 0 or the
Int is finite. -/
theorem FloatFormat.Roomy.product_isNumber (hf : f.Roomy) {x : Int} {k c : Rat}
    (hk : (f.datum (f.ofRat k)).value? = some c) (h : c ≠ 0 ∨ x.natAbs ≤ 65535) :
    ((f.datum (f.ofRat x)).mul (f.datum (f.ofRat k))).IsNumber := by
  obtain ⟨s, hs⟩ := Datum.eq_fin_of_value? (hf.datum_ofRat_isNumber k) hk
  rw [hs]
  exact (hf.datum_ofRat_isNumber x).mul (abs_nonneg c) (h.imp abs_ne_zero.mpr fun hx => ⟨_, _, hf.datum_ofRat_int hx⟩)

/-- R77: the product is odd. -/
theorem FloatFormat.Roomy.mul_neg (hf : f.Roomy) {x : Int} (hx : x ≠ 0) {y : Nat}
    (h : ((f.datum (f.ofRat x)).mul (f.datum y)).IsNumber) :
    f.mul (f.ofRat (-x : Int)) y = f.neg (f.mul (f.ofRat x) y) := by
  rw [Int.cast_neg, FloatFormat.ofRat_neg (Int.cast_ne_zero.mpr hx), FloatFormat.mul,
    FloatFormat.datum_neg (hf.ofRat_lt _), Datum.neg_mul]
  exact FloatFormat.encode_neg h.ne_nan

/-- An admitted sense resistance stands for a number other than 0. -/
theorem FloatFormat.eq_fin_of_finiteNonzero {y : Nat} (h : f.finiteNonzero y = true) :
    ∃ s m, f.datum y = .fin s m ∧ 0 < m := by
  unfold FloatFormat.finiteNonzero at h
  cases hd : f.datum y with
  | nan => rw [hd] at h; cases h
  | inf s => rw [hd] at h; cases h
  | fin s m =>
    rw [hd] at h
    have hm : 0 ≤ m := by
      have hnumber := FloatFormat.datum_isNumber (f := f) (x := y) (by rw [hd]; exact nofun)
      rwa [hd] at hnumber
    exact ⟨s, m, rfl, hm.lt_of_ne' (Rat.num_ne_zero.mp (bne_iff_ne.mp h))⟩

/-- R81: a quotient of a number by an admitted sense resistance is a number. -/
theorem FloatFormat.quotient_isNumber {x y : Nat} (hx : f.datum x ≠ .nan) (hy : f.finiteNonzero y = true) :
    ((f.datum x).div (f.datum y)).IsNumber := by
  obtain ⟨s, m, hd, hm⟩ := FloatFormat.eq_fin_of_finiteNonzero hy
  rw [hd]
  exact (FloatFormat.datum_isNumber hx).div hm

/-- R77: and the quotient of a number is odd. -/
theorem FloatFormat.neg_div {x y : Nat} (hlt : x < 2 ^ (1 + (f.expBits + f.fracBits))) (hx : f.datum x ≠ .nan)
    (hy : f.finiteNonzero y = true) : f.div (f.neg x) y = f.neg (f.div x y) := by
  rw [FloatFormat.div, FloatFormat.datum_neg hlt, Datum.neg_div]
  exact FloatFormat.encode_neg (FloatFormat.quotient_isNumber hx hy).ne_nan

theorem FloatFormat.Roomy.datum_one (hf : f.Roomy) : f.datum (f.ofRat 1) = .fin false 1 := by
  have hexact := hf.datum_ofRat_int (x := 1) (by decide)
  rwa [Int.cast_one, abs_one, decide_eq_false (by norm_num)] at hexact

/-- R78: a pattern divided by the pattern of 1 stands for what it stands for. -/
theorem FloatFormat.Roomy.datum_div_one (hf : f.Roomy) {x : Nat} (hx : x < 2 ^ (1 + (f.expBits + f.fracBits))) :
    f.datum (f.div x (f.ofRat 1)) = f.datum x := by
  rw [FloatFormat.div, hf.datum_one, Datum.div_one, FloatFormat.datum_encode_datum hf.expBits_pos hf.fracBits_gt hx]

theorem FloatFormat.Roomy.div_div_one (hf : f.Roomy) {x y : Nat} (hx : x < 2 ^ (1 + (f.expBits + f.fracBits))) :
    f.div (f.div x (f.ofRat 1)) y = f.div x y := by
  have hdatum := hf.datum_div_one hx
  unfold FloatFormat.div at hdatum ⊢
  rw [hdatum]

theorem FloatFormat.Roomy.finiteNonzero_one (hf : f.Roomy) : f.finiteNonzero (f.ofRat 1) = true := by
  simp only [FloatFormat.finiteNonzero, hf.datum_one]
  decide

end Sys2Proof
end

section
/-!
PROOF. Conversions as `Num` (spec/40_conversion.md R65 to R68, R77, R78, R81): exact, or a pattern of one of the two floating
formats, for which the facts about patterns hold.
-/
namespace Sys2Proof

/-- The floating formats of `NUMFMT`, each with its field widths and the `Num` of a pattern. -/
inductive IsFloating : NumFormat → FloatFormat → (Nat → NumVal) → Prop
  | single : IsFloating .binary32 binary32 fun x => .b32 (BitVec.ofNat 32 x)
  | double : IsFloating .binary64 binary64 fun x => .b64 (BitVec.ofNat 64 x)

theorem toNat_pattern32 {x : Nat} (hx : x < 2 ^ (1 + (binary32.expBits + binary32.fracBits))) :
    (BitVec.ofNat 32 x).toNat = x :=
  (BitVec.toNat_ofNat ..).trans (Nat.mod_eq_of_lt hx)

theorem toNat_pattern64 {x : Nat} (hx : x < 2 ^ (1 + (binary64.expBits + binary64.fracBits))) :
    (BitVec.ofNat 64 x).toNat = x :=
  (BitVec.toNat_ofNat ..).trans (Nat.mod_eq_of_lt hx)

/-- Every format is exact or floating. -/
theorem NumFormat.exact_or_floating (fmt : NumFormat) : fmt = .exact ∨ ∃ f pat, IsFloating fmt f pat := by
  cases fmt with
  | exact => exact .inl rfl
  | binary32 => exact .inr ⟨_, _, .single⟩
  | binary64 => exact .inr ⟨_, _, .double⟩

/-- Every `Num` is a rational or the value of a pattern of a floating format. -/
theorem NumVal.exact_or_pattern (v : NumVal) :
    (∃ q, v = .exact q) ∨
      ∃ fmt f pat x, IsFloating fmt f pat ∧ x < 2 ^ (1 + (f.expBits + f.fracBits)) ∧ v = pat x := by
  cases v with
  | exact q => exact .inl ⟨q, rfl⟩
  | b32 x => exact .inr ⟨_, _, _, x.toNat, .single, x.isLt, by rw [BitVec.ofNat_toNat, BitVec.setWidth_eq]⟩
  | b64 x => exact .inr ⟨_, _, _, x.toNat, .double, x.isLt, by rw [BitVec.ofNat_toNat, BitVec.setWidth_eq]⟩

namespace IsFloating

open Machine

variable {fmt : NumFormat} {f : FloatFormat} {pat : Nat → NumVal} {x : Nat}

theorem roomy (h : IsFloating fmt f pat) : f.Roomy := by
  cases h
  · exact binary32_roomy
  · exact binary64_roomy

theorem ofRat_eq (h : IsFloating fmt f pat) (q : Rat) : NumVal.ofRat fmt q = pat (f.ofRat q) := by
  cases h <;> rfl

theorem scale_eq (h : IsFloating fmt f pat) (raw : Int) (k : Rat) :
    NumVal.scale fmt raw k = pat (f.mul (f.ofRat raw) (f.ofRat k)) := by
  cases h <;> rfl

theorem neg_eq (h : IsFloating fmt f pat) (hx : x < 2 ^ (1 + (f.expBits + f.fracBits))) : (pat x).neg = pat (f.neg x) := by
  cases h
  · rw [NumVal.neg, toNat_pattern32 hx]
  · rw [NumVal.neg, toNat_pattern64 hx]

theorem value?_eq (h : IsFloating fmt f pat) (hx : x < 2 ^ (1 + (f.expBits + f.fracBits))) :
    (pat x).value? = (f.datum x).value? := by
  cases h
  · rw [NumVal.value?, toNat_pattern32 hx]
  · rw [NumVal.value?, toNat_pattern64 hx]

theorem notNaN_iff (h : IsFloating fmt f pat) (hx : x < 2 ^ (1 + (f.expBits + f.fracBits))) :
    NotNaN (pat x) ↔ f.datum x ≠ .nan := by
  cases h
  · rw [NotNaN, toNat_pattern32 hx]
  · rw [NotNaN, toNat_pattern64 hx]

/-- A divisor is an admitted pattern of the dividend's format, or nothing is divided by it (spec/60_exceptions.md R120). -/
theorem quotient?_eq (h : IsFloating fmt f pat) (r : NumVal) :
    ∃ divisor : Option Nat, (∀ y, divisor = some y → f.finiteNonzero y = true) ∧
      ∀ x, x < 2 ^ (1 + (f.expBits + f.fracBits)) → (pat x).quotient? r = divisor.map fun y => pat (f.div x y) := by
  cases h with
  | single =>
    cases r with
    | b32 y =>
      by_cases hy : binary32.finiteNonzero y.toNat = true
      · refine ⟨some y.toNat, by rintro _ ⟨⟩; exact hy, fun x hx => ?_⟩
        rw [NumVal.quotient?, toNat_pattern32 hx, if_pos hy]
        rfl
      · exact ⟨none, nofun, fun x hx => by rw [NumVal.quotient?, if_neg hy]; rfl⟩
    | exact _ | b64 _ => exact ⟨none, nofun, fun x hx => rfl⟩
  | double =>
    cases r with
    | b64 y =>
      by_cases hy : binary64.finiteNonzero y.toNat = true
      · refine ⟨some y.toNat, by rintro _ ⟨⟩; exact hy, fun x hx => ?_⟩
        rw [NumVal.quotient?, toNat_pattern64 hx, if_pos hy]
        rfl
      · exact ⟨none, nofun, fun x hx => by rw [NumVal.quotient?, if_neg hy]; rfl⟩
    | exact _ | b32 _ => exact ⟨none, nofun, fun x hx => rfl⟩

/-- Every pattern is divided by an admitted pattern of its format. -/
theorem quotient?_pattern (h : IsFloating fmt f pat) (hx : x < 2 ^ (1 + (f.expBits + f.fracBits))) {y : Nat}
    (hlt : y < 2 ^ (1 + (f.expBits + f.fracBits))) (hy : f.finiteNonzero y = true) :
    (pat x).quotient? (pat y) = some (pat (f.div x y)) := by
  cases h
  · rw [NumVal.quotient?, toNat_pattern32 hx, toNat_pattern32 hlt, if_pos hy]
  · rw [NumVal.quotient?, toNat_pattern64 hx, toNat_pattern64 hlt, if_pos hy]

theorem value?_ofRat (h : IsFloating fmt f pat) (q : Rat) : (NumVal.ofRat fmt q).value? = (f.datum (f.ofRat q)).value? := by
  rw [h.ofRat_eq, h.value?_eq (h.roomy.ofRat_lt q)]

end IsFloating

/-- Settles O15: a pattern's negation stands for the datum with the other sign. -/
theorem negationNegatesTheNumber : Obligations.NegationNegatesTheNumber := by
  intro v
  obtain ⟨q, rfl⟩ | ⟨fmt, f, pat, x, h, hx, rfl⟩ := v.exact_or_pattern
  · rfl
  · rw [h.neg_eq hx, h.value?_eq (FloatFormat.neg_lt hx), h.value?_eq hx, FloatFormat.datum_neg hx, Datum.value?_neg]

/-- R67: the voltage of an Int of at most 16 bits is exact. -/
theorem value?_voltage (fmt : NumFormat) {x : Int} (hx : x.natAbs ≤ 65535) :
    (NumVal.scale fmt x (5 / 32768)).value? = some ((x : Rat) * (5 / 32768)) := by
  obtain rfl | ⟨f, pat, h⟩ := fmt.exact_or_floating
  · rfl
  · rw [h.scale_eq, h.value?_eq (h.roomy.mul_lt _ _), h.roomy.value_voltage hx]

/-- Settles O13: a signed word is an Int of 16 bits. -/
theorem voltageTransferExactInEveryFormat : Obligations.VoltageTransferExactInEveryFormat := by
  intro fmt w
  have hlo := w.le_toInt
  have hhi := w.toInt_lt
  exact value?_voltage fmt (by omega)

theorem value?_voltageFactor (fmt : NumFormat) : (NumVal.ofRat fmt (5 / 32768)).value? = some (5 / 32768) := by
  obtain rfl | ⟨f, pat, h⟩ := fmt.exact_or_floating
  · rfl
  · rw [h.value?_ofRat, h.roomy.datum_voltageFactor]
    rfl

namespace Machine

/-- R77: the product of an Int and a factor that is finite in the format is odd. -/
theorem scale_neg {fmt : NumFormat} {x : Int} {k c : Rat} (hx : x ≠ 0) (hk : (NumVal.ofRat fmt k).value? = some c)
    (hc : c ≠ 0 ∨ x.natAbs ≤ 65535) : NumVal.scale fmt (-x) k = (NumVal.scale fmt x k).neg := by
  obtain rfl | ⟨f, pat, h⟩ := fmt.exact_or_floating
  · rw [NumVal.scale, NumVal.scale, NumVal.neg, Int.cast_neg, neg_mul]
  · rw [h.value?_ofRat] at hk
    rw [h.scale_eq, h.scale_eq, h.roomy.mul_neg hx (h.roomy.product_isNumber hk hc), h.neg_eq (h.roomy.mul_lt _ _)]

/-- R81: and it is no NaN. -/
theorem scale_notNaN {fmt : NumFormat} {x : Int} {k c : Rat} (hk : (NumVal.ofRat fmt k).value? = some c)
    (hc : c ≠ 0 ∨ x.natAbs ≤ 65535) : NotNaN (NumVal.scale fmt x k) := by
  obtain rfl | ⟨f, pat, h⟩ := fmt.exact_or_floating
  · trivial
  · rw [h.value?_ofRat] at hk
    rw [h.scale_eq, h.notNaN_iff (h.roomy.mul_lt _ _)]
    exact FloatFormat.datum_encode_ne_nan h.roomy.expBits_pos (h.roomy.product_isNumber hk hc)

/-- A rational is divided by a rational other than 0 alone. -/
theorem quotient?_exact (r : NumVal) :
    (∃ b : Rat, ∀ a : Rat, (NumVal.exact a).quotient? r = some (.exact (a / b))) ∨
      ∀ a : Rat, (NumVal.exact a).quotient? r = none := by
  obtain ⟨-, -, hquot⟩ := exactArithmeticIsRational
  cases r with
  | exact b =>
    by_cases hb : b = 0
    · exact .inr fun _ => if_pos (Rat.num_eq_zero.mpr hb)
    · exact .inl ⟨b, fun a => hquot a b hb⟩
  | b32 _ | b64 _ => exact .inr fun _ => rfl

/-- R77: the quotient of a number is odd. -/
theorem quotient?_neg {v : NumVal} (hv : NotNaN v) (r : NumVal) : v.neg.quotient? r = (v.quotient? r).map NumVal.neg := by
  obtain ⟨a, rfl⟩ | ⟨fmt, f, pat, x, h, hx, rfl⟩ := v.exact_or_pattern
  · obtain ⟨b, hquot⟩ | hnone := quotient?_exact r
    · rw [NumVal.neg, hquot, hquot, neg_div]
      rfl
    · rw [NumVal.neg, hnone, hnone]
      rfl
  · obtain ⟨divisor, hadmitted, hquot⟩ := h.quotient?_eq r
    rw [h.neg_eq hx, hquot _ hx, hquot _ (FloatFormat.neg_lt hx)]
    cases divisor with
    | none => rfl
    | some y =>
      rw [h.notNaN_iff hx] at hv
      simp only [Option.map_some]
      rw [FloatFormat.neg_div hx hv (hadmitted y rfl), h.neg_eq (h.roomy.div_lt x y)]

/-- R81: and it is no NaN. -/
theorem quotient?_notNaN {v r u : NumVal} (hv : NotNaN v) (hu : v.quotient? r = some u) : NotNaN u := by
  obtain ⟨a, rfl⟩ | ⟨fmt, f, pat, x, h, hx, rfl⟩ := v.exact_or_pattern
  · obtain ⟨b, hquot⟩ | hnone := quotient?_exact r
    · rw [hquot] at hu
      cases hu
      trivial
    · rw [hnone] at hu
      cases hu
  · obtain ⟨divisor, hadmitted, hquot⟩ := h.quotient?_eq r
    rw [hquot _ hx] at hu
    obtain ⟨y, hy, rfl⟩ := Option.map_eq_some_iff.mp hu
    rw [h.notNaN_iff hx] at hv
    rw [h.notNaN_iff (h.roomy.div_lt x y)]
    exact FloatFormat.datum_encode_ne_nan h.roomy.expBits_pos (FloatFormat.quotient_isNumber hv (hadmitted y hy))

variable {s : State} {q : Quantity}

/-- R77 for every quantity. -/
theorem convert?_neg {x : Int} {c : Rat} (hx : x ≠ 0)
    (hk : (NumVal.ofRat s.params.numFormat (s.params.factor q)).value? = some c) (h : c ≠ 0 ∨ x.natAbs ≤ 65535) :
    convert? s q (-x) = (convert? s q x).map NumVal.neg := by
  have hodd : transfer s.params q (-x) = (transfer s.params q x).neg := scale_neg hx hk h
  cases hq : q.divByRsns
  · rw [convert?_undivided hq, convert?_undivided hq, hodd, Option.map_some]
  · rw [convert?_divided hq, convert?_divided hq, hodd]
    exact quotient?_neg (scale_notNaN hk h) _

/-- R65 in exact arithmetic: with an admitted sense resistance a conversion multiplies by a constant. -/
theorem convert?_exact_linear (hfmt : s.params.numFormat = .exact) (hr : NumVal.admissible .exact s.rsns = true)
    (q : Quantity) : ∃ c : Rat, ∀ x : Int, convert? s q x = some (.exact (x * c)) := by
  obtain ⟨r, hr0, hrsns⟩ := admissible_exact hr
  cases hq : q.divByRsns
  · refine ⟨s.params.factor q, fun x => ?_⟩
    rw [convert?_undivided hq, transfer, hfmt]
    rfl
  · refine ⟨s.params.factor q / r, fun x => ?_⟩
    rw [convert?_exact_divided hfmt hrsns hr0 hq, mul_div_assoc]

/-- Settles O14: oddness by the signs of the patterns, additivity by linearity in exact arithmetic. -/
theorem transfersAreOddAndAdditive : Obligations.TransfersAreOddAndAdditive := by
  refine ⟨fun fmt x hx => scale_neg hx (value?_voltageFactor fmt) (.inl (by norm_num)), fun fmt => ?_,
    fun s q x k hx hk h => convert?_neg hx hk h, fun s q x y hfmt hr => ?_⟩
  · rw [value?_voltage fmt (by decide), Int.cast_zero, zero_mul]
  · obtain ⟨c, hc⟩ := convert?_exact_linear hfmt hr q
    refine ⟨x * c, y * c, hc x, hc y, ?_⟩
    rw [hc, Int.cast_add, add_mul]

/-- R78: dividing a transfer by the format's 1 leaves every further quotient as it was. -/
theorem scale_quotient?_one (fmt : NumFormat) (raw : Int) (k : Rat) :
    ∃ t, (NumVal.scale fmt raw k).quotient? (NumVal.ofRat fmt 1) = some t ∧
      ∀ r, t.quotient? r = (NumVal.scale fmt raw k).quotient? r := by
  obtain rfl | ⟨f, pat, h⟩ := fmt.exact_or_floating
  · obtain ⟨-, -, hquot⟩ := exactArithmeticIsRational
    exact ⟨_, hquot _ 1 one_ne_zero, fun r => by rw [div_one]; rfl⟩
  · have hlt := h.roomy.mul_lt (f.ofRat raw) (f.ofRat k)
    rw [h.scale_eq, h.ofRat_eq]
    refine ⟨_, h.quotient?_pattern hlt (h.roomy.ofRat_lt 1) h.roomy.finiteNonzero_one, fun r => ?_⟩
    obtain ⟨divisor, -, hquot⟩ := h.quotient?_eq r
    rw [hquot _ (h.roomy.div_lt _ _), hquot _ hlt]
    simp only [h.roomy.div_div_one hlt]

/-- Settles O16, for the transfer of every format. -/
theorem currentInverselyProportionalToSense : Obligations.CurrentInverselyProportionalToSense := by
  intro fmt raw k r
  obtain ⟨t, ht, hsame⟩ := scale_quotient?_one fmt raw k
  rw [ht]
  exact hsame r

/-- R53: an operand has at most 16 bits. -/
theorem rawValue_natAbs_le (f : RawFormat) (d1 d2 : Byte) : (rawValue f d1 d2).natAbs ≤ 65535 := by
  obtain ⟨⟨-, hlo16, hhi16⟩, ⟨hnat16, hmax16⟩, ⟨-, hlo8, hhi8⟩, hnat8, hmax8⟩ := operandIntegerByFormat d1 d2
  obtain ⟨width, signed⟩ := f
  cases width <;> cases signed <;> omega

/-- Settles O17: the Int is finite in the format, and so are the factor and the divisor. -/
theorem conversionsGiveNoNaN : Obligations.ConversionsGiveNoNaN := by
  intro s q d1 d2 v hr hfinite hv
  obtain ⟨c, hc⟩ := Option.isSome_iff_exists.mp hfinite
  have hnumber : NotNaN (transfer s.params q (operandOf s q d1 d2)) :=
    scale_notNaN hc (.inr (rawValue_natAbs_le _ d1 d2))
  cases hq : q.divByRsns
  · rw [convert?_undivided hq] at hv
    cases hv
    exact hnumber
  · rw [convert?_divided hq] at hv
    exact quotient?_notNaN hnumber hv

end Machine

end Sys2Proof
end
